-- ==== Sys2Proof/Word.lean ====
section
/-! DEFINITION. The widths of CORE's words (00_scope.md R7): a data byte and the nine-bit program counter. -/

namespace Sys2Proof

/-- Data width: register, memory cell, operand, immediate, `FL` (R7). Always read as unsigned (R8). -/
abbrev Byte := BitVec 8

/-- Nine bits: `pc`, `FAULT_PC` and `FAULT_INFO` (R20). Nine is the least width that holds 256 (decision D2). -/
abbrev Addr := BitVec 9

/-- A legal register index, 0 to 7 (R21). -/
abbrev RegIdx := Fin 8

end Sys2Proof
end

