-- ==== Sys2Proof/Syntax.lean ====
section
/-! DEFINITION. The instruction set of 30_encoding.md R93: five instructions, their closed enumeration of opcodes (R98)
and the four formats (R91). -/

namespace Sys2Proof

/-- One constructor per row of the opcode map (R93). An operand is the WHOLE operand byte (R91, R95): a register index
of 8 to 255 is an encodable instruction, which raises RegisterIndexFault when it executes (R183). -/
inductive Instr where
  /-- `LDI Ra,imm`: load immediate (R140). -/
  | ldi (a imm : Byte)
  /-- `PRN Ra`: print register (R141). -/
  | prn (a : Byte)
  /-- `HLT`: halt (R170). -/
  | hlt
  /-- `MUL Ra,Rb`: multiply modulo 256 (R155). -/
  | mul (a b : Byte)
  /-- `CMP Ra,Rb`: compare into `FL` (R156). -/
  | cmp (a b : Byte)
deriving DecidableEq, Repr

/-- The closed enumeration of opcodes (R98): what the Dispatcher resolves an opcode byte to. -/
inductive Opcode where
  | ldi
  | prn
  | hlt
  | mul
  | cmp
deriving DecidableEq, Repr

/-- The four instruction formats (R91). -/
inductive Format where
  /-- `OP`: the opcode alone. -/
  | op
  /-- `OP_R`: opcode, register index. -/
  | opR
  /-- `OP_RI`: opcode, register index, immediate. -/
  | opRI
  /-- `OP_RR`: opcode, register index, register index. -/
  | opRR
deriving DecidableEq, Repr

end Sys2Proof
end

