-- ==== Sys2Proof/Decode.lean ====
section
/-! DEFINITION. The Dispatcher (30_encoding.md R93, R94), the decoder over the opcode byte and the two candidate operand
bytes, and the encoder written from the same opcode map. -/

namespace Sys2Proof

/-- The opcode map: the byte that stands for each opcode (R93). -/
def Opcode.byte : Opcode → Byte
  | .ldi => 0x82#8
  | .prn => 0x47#8
  | .hlt => 0x01#8
  | .mul => 0xA2#8
  | .cmp => 0xA7#8

/-- The opcode map: each opcode's format (R93, R91). -/
def Opcode.format : Opcode → Format
  | .ldi => .opRI
  | .prn => .opR
  | .hlt => .op
  | .mul => .opRR
  | .cmp => .opRR

/-- The opcode map: the declared byte length, opcode included (R93). It is a table entry and is not computed from bits
of the opcode (R92). -/
def Opcode.length : Opcode → Nat
  | .ldi => 3
  | .prn => 2
  | .hlt => 1
  | .mul => 3
  | .cmp => 3

/-- How many operand bytes a format has (R91). -/
def Format.operandCount : Format → Nat
  | .op => 0
  | .opR => 1
  | .opRI => 2
  | .opRR => 2

/-- The Dispatcher: a match of the whole byte; every other byte has no entry (R92, R97). -/
def dispatch (ir : Byte) : Option Opcode :=
  match ir with
  | 0x82#8 => some .ldi
  | 0x47#8 => some .prn
  | 0x01#8 => some .hlt
  | 0xA2#8 => some .mul
  | 0xA7#8 => some .cmp
  | _ => none

/-- Why the decoder gives no instruction. -/
inductive DecodeReject where
  /-- The opcode byte has no entry in the opcode map (R97). The step turns it into the UnknownOpcode fault (R181). -/
  | unknownOpcode (opcode : Byte)
deriving DecidableEq, Repr

/-- Decode the opcode byte and both candidate operand bytes; an instruction takes as many operands as it has and
ignores the rest (R96). Total; the operands play no part in whether a byte resolves (R181). -/
def decode (ir operandA operandB : Byte) : Except DecodeReject Instr :=
  match dispatch ir with
  | some .ldi => .ok (.ldi operandA operandB)
  | some .prn => .ok (.prn operandA)
  | some .hlt => .ok .hlt
  | some .mul => .ok (.mul operandA operandB)
  | some .cmp => .ok (.cmp operandA operandB)
  | none => .error (.unknownOpcode ir)

/-- Decode the instruction at the head of a list of bytes. The hardware always reads three bytes (R122), so a shorter
list gives none. -/
def decodeBytes : List Byte → Option Instr
  | ir :: operandA :: operandB :: _ => (decode ir operandA operandB).toOption
  | _ => none

/-- The opcode an instruction is written with. -/
def Instr.opcode : Instr → Opcode
  | .ldi _ _ => .ldi
  | .prn _ => .prn
  | .hlt => .hlt
  | .mul _ _ => .mul
  | .cmp _ _ => .cmp

/-- The operand bytes, in address order (R91). -/
def Instr.operands : Instr → List Byte
  | .ldi a imm => [a, imm]
  | .prn a => [a]
  | .hlt => []
  | .mul a b => [a, b]
  | .cmp a b => [a, b]

/-- The declared byte length of an instruction (R90). -/
def Instr.length (i : Instr) : Nat :=
  i.opcode.length

/-- The bytes of an instruction, at ascending addresses (R63, R90, R91). -/
def encode (i : Instr) : List Byte :=
  i.opcode.byte :: i.operands

/-- The mnemonic (R93). -/
def Opcode.mnemonic : Opcode → String
  | .ldi => "LDI"
  | .prn => "PRN"
  | .hlt => "HLT"
  | .mul => "MUL"
  | .cmp => "CMP"

/-- A byte as a decimal numeral: no sign, no leading zeros, no padding (R100, R142). -/
def decimal (b : Byte) : String :=
  toString b.toNat

/-- The assembly spelling of a well-formed instruction (R100). -/
def Instr.asm : Instr → String
  | .ldi a imm => Opcode.ldi.mnemonic ++ " R" ++ decimal a ++ "," ++ decimal imm
  | .prn a => Opcode.prn.mnemonic ++ " R" ++ decimal a
  | .hlt => Opcode.hlt.mnemonic
  | .mul a b => Opcode.mul.mnemonic ++ " R" ++ decimal a ++ ",R" ++ decimal b
  | .cmp a b => Opcode.cmp.mnemonic ++ " R" ++ decimal a ++ ",R" ++ decimal b

/-- The three bytes of a table word: byte `k` is bits `8k+7` to `8k`, and every bit at or above `nbits` is 0. -/
def tableBytes (nbits w : Nat) : List Byte :=
  let v := w % 2 ^ nbits
  [BitVec.ofNat 8 v, BitVec.ofNat 8 (v / 256), BitVec.ofNat 8 (v / 65536)]

/-- What the decoder reads from an instruction whose bits are `w`, numbered as the opcode table numbers them. -/
def decodeTableWord (nbits w : Nat) : Option Instr :=
  decodeBytes (tableBytes nbits w)

end Sys2Proof
end

