-- ==== Sys2Proof/Config.lean ====
section
/-! DEFINITION. The implementation parameters of 00_scope.md R7. The hardware is one fixed configuration: no parameter
is left open and there is no free value (93_implementation_defined.md section 1). -/

namespace Sys2Proof

/-- Memory size: 256 cells of one byte, addresses 0 to 255 (R7, R60). -/
abbrev Config.memSize : Nat := 256

/-- Largest program image Load accepts (R7; decision D10). -/
abbrev Config.maxImage : Nat := 256

/-- The program image is loaded from this address on (R7, R75). -/
abbrev Config.loadAddress : Nat := 0

/-- The last address at which an instruction can execute: all three fetch reads must be at most 255 (R231; decision D4). -/
abbrev Config.lastOpcodeAddress : Nat := 253

/-- Reset value of `x[7]`, the Stack Pointer (R7, R43). -/
abbrev Config.spReset : Byte := 0xF4#8

/-- Reset value of the program counter (R7, R43). -/
abbrev Config.pcReset : Addr := 0#9

/-- What a memory cell holds after reset, so what an address the memory list does not name reads as (R38, R43). -/
abbrev Config.memReset : Byte := 0#8

end Sys2Proof
end

