-- ==== Sys2Proof/Machine/Memory.lean ====
section
/-! DEFINITION. Memory as plain data (20_memory.md R60): the cells that differ from their reset value 0, as a list of
(address, byte) pairs with strictly rising addresses. -/

namespace Sys2Proof.Machine

/-- The memory. An address the list does not name reads as 0, its reset value (R38, R43). -/
abbrev Memory := List Host.Cell

/-- The byte at an address. The range check is `State.memRead`'s (R61); an address above 255 names no cell. -/
def Memory.read : Memory → Nat → Byte
  | [], _ => Config.memReset
  | (k, v) :: rest, a => if a = k then v else Memory.read rest a

/-- Put `v` at address `a`, keeping the canonical form: writing 0 removes the entry. -/
def Memory.put : Memory → Nat → Byte → Memory
  | [], a, v => if v = Config.memReset then [] else [(a, v)]
  | (k, w) :: rest, a, v =>
    if a < k then
      if v = Config.memReset then (k, w) :: rest else (a, v) :: (k, w) :: rest
    else if a = k then
      if v = Config.memReset then rest else (a, v) :: rest
    else (k, w) :: Memory.put rest a v

/-- `MemWrite(addr, 1, v)` (R62). Its precondition is `addr ≤ 255`; outside it there is no cell to write. -/
def Memory.write (m : Memory) (a : Nat) (v : Byte) : Memory :=
  if a < Config.memSize then m.put a v else m

/-- Canonical from address `lo` on: addresses strictly rising, all below 256, no entry equal to the reset value. -/
def Memory.wfFrom : Nat → Memory → Bool
  | _, [] => true
  | lo, (k, v) :: rest =>
    decide (lo ≤ k) && decide (k < Config.memSize) && decide (v ≠ Config.memReset) && Memory.wfFrom (k + 1) rest

/-- The canonical form: equal memories are equal lists. -/
def Memory.wf (m : Memory) : Bool :=
  Memory.wfFrom 0 m

/-- Copy bytes to ascending addresses from `a` on, in order (R75). -/
def Memory.load : Memory → Nat → List Byte → Memory
  | m, _, [] => m
  | m, a, b :: bytes => Memory.load (m.write a b) (a + 1) bytes

end Sys2Proof.Machine
end

