-- ==== Sys2Proof/Machine/State.lean ====
section
/-! DEFINITION. The architectural state of 10_state.md R20, the environment's record OUT (R40), the reset state (R43)
and the outcome types. -/

namespace Sys2Proof.Machine

/-- `RunState` (R35). The core executes steps only while `running`. -/
inductive RunState where
  /-- Idle after reset or after HLT; keeps all state (R198). -/
  | stopped
  /-- Executing steps (R120). -/
  | running
  /-- A step raised a fault; sticky until Reset (R189). -/
  | faulted
deriving DecidableEq, Repr

/-- The faults of the core with what each reports (60_exceptions.md R180). Raising one is a NEXT state (R187). -/
inductive CoreFault where
  /-- Raised by the step when the opcode byte has no entry in the opcode map (R181). -/
  | unknownOpcode (opcode : Byte)
  /-- Raised by nothing: the ALU's selector is a closed set (R184). Its code 2 stays reserved for it. -/
  | unsupportedOperation
  /-- Raised by a fetch read of an address above 255 (R182). -/
  | memoryFault (addr : Nat)
  /-- Raised by LDI, PRN, MUL and CMP for a register index above 7 (R183). -/
  | registerIndexFault (operand : Byte)
deriving DecidableEq, Repr

/-- The machine's state: the tuple of R20 and the environment's OUT. Plain data. -/
structure State where
  /-- `M[0..255]` (R38). -/
  mem : Memory
  /-- `x[0..7]`, the general registers; `x[7]` is also named Stack Pointer (R21, R22). -/
  x : Vector Byte 8
  /-- `FL`: E bit 0, G bit 1, L bit 2, bits 7 to 3 zero (R31). -/
  fl : Byte
  /-- `pc` (R27). -/
  pc : Addr
  /-- `RunState` (R35). -/
  runState : RunState
  /-- `FAULT_KIND`, the code of R180, 0 if none (R37). -/
  faultKind : BitVec 3
  /-- `FAULT_PC` (R37). -/
  faultPc : Addr
  /-- `FAULT_INFO` (R37). -/
  faultInfo : Addr
  /-- `OUT`: the bytes emitted so far, oldest first; the environment's record (R40). -/
  out : List Byte
deriving DecidableEq, Repr

/-- Every reset value is the spec's (R43); OUT is empty when the environment starts recording (R40). -/
def State.reset : State where
  mem := []
  x := #v[0, 0, 0, 0, 0, 0, 0, Config.spReset]
  fl := 0
  pc := Config.pcReset
  runState := .stopped
  faultKind := 0
  faultPc := 0
  faultInfo := 0
  out := []

/-- Ways a step of the MODEL stops with a fault: none. No constructor, so nobody raises one, and that is safe: every
fault of this hardware has an entry the spec describes (R187) and is a next state in run state `faulted`. -/
inductive Fault where
deriving DecidableEq, Repr

/-- Ways a step of the model is refused. -/
inductive Refusal where
  /-- Answered only by an arm of `exec` whose instruction has no meaning yet; no arm answers it now. Safe: the model
  stops where the hardware goes on. -/
  | notModelled (mnemonic : String)
deriving DecidableEq, Repr

/-- The outcome of a step of this machine. -/
abbrev StepOutcome := Host.Outcome State Fault Refusal

end Sys2Proof.Machine
end

