-- ==== Sys2Proof/Machine/Ops.lean ====
section
/-! DEFINITION. The named operations over registers, memory, output, program counter and run state, and fault entry as
one shared operation (60_exceptions.md R187). There is no return from a fault (R189). -/

namespace Sys2Proof.Machine

/-- Read general register `i` (R21). No register is hardwired (R22). -/
def State.readReg (s : State) (i : RegIdx) : Byte :=
  s.x[i]

/-- `x[i] <- v` (R21, R25). -/
def State.writeReg (s : State) (i : RegIdx) (v : Byte) : State :=
  { s with x := s.x.set i v }

/-- `FL <- v`, the whole register (R32). -/
def State.writeFlags (s : State) (v : Byte) : State :=
  { s with fl := v }

/-- `emit(v)`: append the byte to OUT (R10, R40). The port never stalls and never fails (R141). -/
def State.emit (s : State) (v : Byte) : State :=
  { s with out := s.out ++ [v] }

/-- Item 4 of the step: `pc <- pc + len` (R125). -/
def State.advance (s : State) (len : Nat) : State :=
  { s with pc := s.pc + BitVec.ofNat 9 len }

/-- `RunState <- r` (R36). -/
def State.setRunState (s : State) (r : RunState) : State :=
  { s with runState := r }

/-- The code `FAULT_KIND` takes (R180; decision D19). -/
def CoreFault.code : CoreFault → BitVec 3
  | .unknownOpcode _ => 1
  | .unsupportedOperation => 2
  | .memoryFault _ => 3
  | .registerIndexFault _ => 4

/-- The value `FAULT_INFO` takes (R180). -/
def CoreFault.info : CoreFault → Addr
  | .unknownOpcode opcode => opcode.setWidth 9
  | .unsupportedOperation => 0
  | .memoryFault addr => BitVec.ofNat 9 addr
  | .registerIndexFault operand => operand.setWidth 9

/-- Fault entry, `raise F(info)`: the fault record and `RunState` are written and nothing else (R187). -/
def State.raise (s : State) (f : CoreFault) : State :=
  { s with faultKind := f.code, faultPc := s.pc, faultInfo := f.info, runState := .faulted }

/-- `MemRead(addr, 1)`: an address above 255 raises MemoryFault; it is not reduced modulo 256 (R61, R67). -/
def State.memRead (s : State) (addr : Nat) : Except CoreFault Byte :=
  if addr < Config.memSize then .ok (s.mem.read addr) else .error (.memoryFault addr)

end Sys2Proof.Machine
end

