-- ==== Sys2Proof/Machine/Flags.lean ====
section
/-! DEFINITION. The condition bits (10_state.md R31) and the ALU function CMP that computes them (42_alu.md R153). -/

namespace Sys2Proof.Machine

/-- Equal, bit 0 (R31). -/
abbrev flagE : BitVec 3 := 0b001#3

/-- Greater-than, bit 1 (R31). -/
abbrev flagG : BitVec 3 := 0b010#3

/-- Less-than, bit 2 (R31). -/
abbrev flagL : BitVec 3 := 0b100#3

/-- `ALU_CMP(va, vb)`: an unsigned comparison; exactly one bit of the result is set (R153). -/
def aluCmp (va vb : Byte) : BitVec 3 :=
  if va.toNat = vb.toNat then flagE else if va.toNat > vb.toNat then flagG else flagL

/-- The E bit of `FL` (R31). -/
def State.flagEqual (s : State) : Bool := s.fl.getLsbD 0

/-- The G bit of `FL` (R31). -/
def State.flagGreater (s : State) : Bool := s.fl.getLsbD 1

/-- The L bit of `FL` (R31). -/
def State.flagLess (s : State) : Bool := s.fl.getLsbD 2

end Sys2Proof.Machine
end

