-- ==== Sys2Proof/Machine/Operands.lean ====
section
/-! DEFINITION. The operand forms of 30_encoding.md R95: a register index, which is checked, and an immediate byte,
which is taken as it is and needs no operation. -/

namespace Sys2Proof.Machine

/-- An operand byte as a register index: the whole byte, legal when it is 0 to 7; no bit is masked off (R26, R95). -/
def regIndex (operand : Byte) : Option RegIdx :=
  if h : operand.toNat < 8 then some ⟨operand.toNat, h⟩ else none

/-- Check one register index and go on with it; an index above 7 raises RegisterIndexFault(operand), and nothing has
been written yet (R124, R183). -/
def State.withReg (s : State) (operand : Byte) (handler : RegIdx → State) : State :=
  match regIndex operand with
  | some i => handler i
  | none => s.raise (.registerIndexFault operand)

/-- Check `operand_a`, then `operand_b` (R124, R186). -/
def State.withRegs (s : State) (operandA operandB : Byte) (handler : RegIdx → RegIdx → State) : State :=
  s.withReg operandA fun i => s.withReg operandB fun j => handler i j

end Sys2Proof.Machine
end

