-- ==== Sys2Proof/Machine/Alu.lean ====
section
/-! DEFINITION. The ALU of 42_alu.md R150 to R154: pure functions of two bytes under a closed selector, and the write-back
of its output by the execute action (R45, R150). -/

namespace Sys2Proof.Machine

/-- The operation selector: a closed set (R154). `add` is selected by no opcode (R157). -/
inductive AluOp where
  | add
  | mul
  | cmp
deriving DecidableEq, Repr

/-- The ALU's output: a result byte for ADD and MUL, a flags value for CMP (R150). -/
inductive AluOut where
  | result (v : Byte)
  | flags (f : BitVec 3)
deriving DecidableEq, Repr

/-- `ALU_ADD(va, vb) = (va + vb) mod 256` (R151). -/
def aluAdd (va vb : Byte) : Byte :=
  BitVec.ofNat 8 ((va.toNat + vb.toNat) % 256)

/-- `ALU_MUL(va, vb) = (va * vb) mod 256` (R152). -/
def aluMul (va vb : Byte) : Byte :=
  BitVec.ofNat 8 ((va.toNat * vb.toNat) % 256)

/-- The combinational ALU (R150). -/
def alu (op : AluOp) (va vb : Byte) : AluOut :=
  match op with
  | .add => .result (aluAdd va vb)
  | .mul => .result (aluMul va vb)
  | .cmp => .flags (aluCmp va vb)

/-- The one write of an ALU instruction: the result to `x[a]`, or the flags, widened with zeros, to `FL` (R45, R150, R156). -/
def State.aluWrite (s : State) (dest : RegIdx) : AluOut → State
  | .result v => s.writeReg dest v
  | .flags f => s.writeFlags (f.setWidth 8)

/-- The handler an ALU instruction shares: check both indices, read both registers, compute, write once (R124, R155, R156). -/
def State.aluHandler (s : State) (op : AluOp) (operandA operandB : Byte) (len : Nat) : State :=
  s.withRegs operandA operandB fun i j =>
    (s.aluWrite i (alu op (s.readReg i) (s.readReg j))).advance len

end Sys2Proof.Machine
end

