-- ==== Sys2Proof/Machine/AluInstr.lean ====
section
/-! DEFINITION. The meanings of MUL and CMP (42_alu.md R155, R156). -/

namespace Sys2Proof.Machine

/-- MUL (R155): `x[a] <- ALU_MUL(x[a], x[b])`; `FL` unchanged; `pc + 3`. -/
def execMul (a b : Byte) (s : State) : StepOutcome :=
  .next (s.aluHandler .mul a b Opcode.mul.length)

/-- CMP (R156): `FL <- zext_8(ALU_CMP(x[a], x[b]))`; no register written; `pc + 3`. -/
def execCmp (a b : Byte) (s : State) : StepOutcome :=
  .next (s.aluHandler .cmp a b Opcode.cmp.length)

end Sys2Proof.Machine
end

