-- ==== Sys2Proof/Machine/Halt.lean ====
section
/-! DEFINITION. The meaning of HLT (43_hlt.md R170). -/

namespace Sys2Proof.Machine

/-- HLT (R170): `RunState <- Stopped`, and the step still advances, `pc + 1` (R125; decision D18). -/
def execHlt (s : State) : StepOutcome :=
  .next ((s.setRunState .stopped).advance Opcode.hlt.length)

end Sys2Proof.Machine
end

