-- ==== Sys2Proof/Machine/LoadPrint.lean ====
section
/-! DEFINITION. The meanings of LDI and PRN (41_ldi_prn.md R140, R141). -/

namespace Sys2Proof.Machine

/-- LDI (R140): check `a`, then `x[a] <- imm`; the immediate is never checked; `pc + 3`. -/
def execLdi (a imm : Byte) (s : State) : StepOutcome :=
  .next (s.withReg a fun i => (s.writeReg i imm).advance Opcode.ldi.length)

/-- PRN (R141): check `a`, then emit `x[a]`; `pc + 2`. -/
def execPrn (a : Byte) (s : State) : StepOutcome :=
  .next (s.withReg a fun i => (s.emit (s.readReg i)).advance Opcode.prn.length)

end Sys2Proof.Machine
end

