-- ==== Sys2Proof/Machine/Fetch.lean ====
section
/-! DEFINITION. Items 1 to 3 of the step (40_execution_loop.md R120): the three reads and the resolution of the opcode;
and the placing of an instruction where the step fetches it next. -/

namespace Sys2Proof.Machine

/-- The opcode byte and both candidate operand bytes, read in that order whatever the instruction; the first read that
fails ends the fetch (R121, R122, R65; decision D4). Addresses are natural numbers, without wrap-around (R67). -/
def State.fetch (s : State) : Except CoreFault (Byte × Byte × Byte) :=
  match s.memRead s.pc.toNat with
  | .error f => .error f
  | .ok ir =>
    match s.memRead (s.pc.toNat + 1) with
    | .error f => .error f
    | .ok operandA =>
      match s.memRead (s.pc.toNat + 2) with
      | .error f => .error f
      | .ok operandB => .ok (ir, operandA, operandB)

/-- Fetch and resolve: the instruction at `pc`, or the first fault met (R123, R186). -/
def State.fetchInstr (s : State) : Except CoreFault Instr :=
  match s.fetch with
  | .error f => .error f
  | .ok (ir, operandA, operandB) =>
    match decode ir operandA operandB with
    | .error (.unknownOpcode opcode) => .error (.unknownOpcode opcode)
    | .ok i => .ok i

/-- Where an instruction can be placed for the next fetch: at `pc` if all three reads are in range there, else at 0. -/
def State.placeAddr (s : State) : Addr :=
  if s.pc.toNat ≤ Config.lastOpcodeAddress then s.pc else 0

/-- The fault record of a machine that is to run: as Reset leaves it if a fault had been taken, else as it is (R37, R189). -/
def State.clearFault (s : State) : State :=
  match s.runState with
  | .faulted => { s with faultKind := 0, faultPc := 0, faultInfo := 0 }
  | _ => s

/-- Place bytes where the next step fetches, and set the core Running (log entry 4). -/
def State.placeBytes (s : State) (bytes : List Byte) : State :=
  { s.clearFault with
    pc := s.placeAddr
    mem := s.mem.load s.placeAddr.toNat bytes
    runState := .running }

end Sys2Proof.Machine
end

