-- ==== Sys2Proof/Machine/Step.lean ====
section
/-! DEFINITION. The step of the core (40_execution_loop.md R120), one atomic transition (R127). -/

namespace Sys2Proof.Machine

/-- While Running: fetch, resolve, execute, advance; a fault on the way is taken (R120, R187). In any other run state the
core takes no step and keeps all its state (R35, R189, R198): the step is idle (log entry 1). -/
def step (s : State) : Host.Outcome State Fault Refusal :=
  match s.runState with
  | .running =>
    match s.fetchInstr with
    | .ok i => exec i s
    | .error f => .next (s.raise f)
  | .stopped => .next s
  | .faulted => .next s

/-- `s` with the instruction of a table word stored where `step` fetches next, and the core Running. From reset it is a
Load followed by a Run (log entry 4). -/
def State.withFetchWord (s : State) (nbits w : Nat) : State :=
  s.placeBytes (tableBytes nbits w)

end Sys2Proof.Machine
end

