-- ==== Sys2Proof/Machine/Requests.lean ====
section
/-! DEFINITION. What the host does to the core and sees of it (70_reset_and_hazards.md R220 to R229; the ports of 10_state.md
R44). Each request is one atomic event; `step` is the core's move, these are the host's (log entry 4). -/

namespace Sys2Proof.Machine

/-- The host's requests (R44, R227). -/
inductive HostRequest where
  | reset
  | load (bytes : List Byte)
  | run
deriving DecidableEq, Repr

/-- What the host learns of its request (R75, R224, R225; log entry 9). -/
inductive Reply where
  /-- The request was carried out. -/
  | accepted
  /-- A Load of more than 256 bytes while Stopped: refused as a whole (R75). -/
  | loadOverflow
  /-- A Load while Running or Faulted: refused, no change (R224). -/
  | refused
  /-- A Run while Running or Faulted: ignored, no change (R225). -/
  | ignored
deriving DecidableEq, Repr

/-- Reset: every piece of core state at its reset value; what the environment has received stays (R220, R40). -/
def State.hostReset (s : State) : State :=
  { State.reset with out := s.out }

/-- Load: only while Stopped; a longer image than memory is refused whole; writes `M[0..n-1]` and nothing else (R75, R224). -/
def State.hostLoad (s : State) (bytes : List Byte) : Reply × State :=
  match s.runState with
  | .stopped =>
    if bytes.length > Config.maxImage then (.loadOverflow, s)
    else (.accepted, { s with mem := s.mem.load Config.loadAddress bytes })
  | .running => (.refused, s)
  | .faulted => (.refused, s)

/-- Run: changes only `RunState`, and only from Stopped (R225, R226). -/
def State.hostRun (s : State) : Reply × State :=
  match s.runState with
  | .stopped => (.accepted, s.setRunState .running)
  | .running => (.ignored, s)
  | .faulted => (.ignored, s)

/-- One host request (R227). -/
def State.request (s : State) : HostRequest → Reply × State
  | .reset => (.accepted, s.hostReset)
  | .load bytes => s.hostLoad bytes
  | .run => s.hostRun

/-- What the Status port shows (R44; decision D23). -/
structure Status where
  runState : RunState
  faultKind : BitVec 3
  faultPc : Addr
  faultInfo : Addr
  fl : Byte
  pc : Addr
deriving DecidableEq, Repr

/-- The Status port, readable at any time; registers and memory are not on it (R44, R227). -/
def State.status (s : State) : Status where
  runState := s.runState
  faultKind := s.faultKind
  faultPc := s.faultPc
  faultInfo := s.faultInfo
  fl := s.fl
  pc := s.pc

/-- The environment's rendering of OUT: one decimal numeral and a newline per byte, in order (R142). -/
def renderOut (out : List Byte) : String :=
  String.join (out.map fun v => decimal v ++ "\n")

/-- The standalone program's exit status at the end of a run; none while the core is Running (R229, for information). -/
def State.exitStatus (s : State) : Option Nat :=
  match s.runState with
  | .running => none
  | .stopped => some 0
  | .faulted => some 1

end Sys2Proof.Machine
end

