-- ==== Sys2Proof/Safety.lean ====
section
/-! DEFINITION. The terms claims are stated in: frames, fault entry seen from outside, the ends of a run, the invariant of
the machine and the states a core and its host can reach. -/

namespace Sys2Proof.Machine

/-- No general register differs. -/
def SameRegs (s t : State) : Prop := ∀ i : RegIdx, t.readReg i = s.readReg i

/-- No general register but `d` differs. -/
def SameRegsExcept (d : RegIdx) (s t : State) : Prop := ∀ i : RegIdx, i ≠ d → t.readReg i = s.readReg i

/-- Every byte of memory reads as before. -/
def SameMem (s t : State) : Prop := ∀ a : Nat, t.mem.read a = s.mem.read a

/-- The fault record is as before. -/
def SameFaultRecord (s t : State) : Prop :=
  t.faultKind = s.faultKind ∧ t.faultPc = s.faultPc ∧ t.faultInfo = s.faultInfo

/-- From `s` to `t` a fault of this kind reporting this value was taken, and nothing but the run state and the fault
record was written (R187, R188). -/
structure FaultEntry (s t : State) (kind info : Nat) : Prop where
  runState : t.runState = .faulted
  kind : t.faultKind.toNat = kind
  faultPc : t.faultPc = s.pc
  info : t.faultInfo.toNat = info
  pc : t.pc = s.pc
  regs : SameRegs s t
  mem : SameMem s t
  fl : t.fl = s.fl
  out : t.out = s.out

/-- The byte `k` places after `pc`. -/
def State.byteAt (s : State) (k : Nat) : Byte := s.mem.read (s.pc.toNat + k)

/-- A run ended by a HLT (R189, R228). -/
def State.endedNormally (s : State) : Prop := s.runState = .stopped ∧ s.faultKind = 0

/-- A run ended by a fault (R228). -/
def State.endedInFault (s : State) : Prop :=
  s.runState = .faulted ∧ (s.faultKind = 1 ∨ s.faultKind = 3 ∨ s.faultKind = 4)

/-- What the fault record of a Faulted core says is so: UnknownOpcode names an opcode byte at `pc` that is none of the
five, MemoryFault is at the top of memory and names address 256, RegisterIndexFault names an operand byte above 7
(R68, R180 to R183). -/
def State.faultRecordTrue (s : State) : Prop :=
  (s.faultKind = 1 ∧ s.pc.toNat ≤ 253 ∧ s.faultInfo.toNat = (s.byteAt 0).toNat ∧ dispatch (s.byteAt 0) = none) ∨
  (s.faultKind = 3 ∧ 254 ≤ s.pc.toNat ∧ s.faultInfo.toNat = 256) ∨
  (s.faultKind = 4 ∧ s.pc.toNat ≤ 253 ∧ 8 ≤ s.faultInfo.toNat ∧
    (s.faultInfo.toNat = (s.byteAt 1).toNat ∨ s.faultInfo.toNat = (s.byteAt 2).toNat))

/-- The invariant of the machine. -/
structure State.Inv (s : State) : Prop where
  /-- Memory keeps its canonical form. -/
  mem : s.mem.wf = true
  /-- `FL` is one of 0, 1, 2, 4 (R33). -/
  fl : s.fl = 0 ∨ s.fl = 1 ∨ s.fl = 2 ∨ s.fl = 4
  /-- `pc` reaches at most 256 (R29). -/
  pc : s.pc.toNat ≤ 256
  /-- The fault record is 0 while the core is not Faulted (R37, R180). -/
  clear : s.runState ≠ .faulted → s.faultKind = 0 ∧ s.faultPc = 0 ∧ s.faultInfo = 0
  /-- In Faulted `pc = FAULT_PC` (R188) and the record is true. -/
  record : s.runState = .faulted → s.faultPc = s.pc ∧ s.faultRecordTrue

/-- The states that a core and its host reach from reset by steps and requests in any order (R11, R227). -/
inductive Reachable : State → Prop where
  | reset : Reachable State.reset
  | core {s t : State} : Reachable s → step s = .next t → Reachable t
  | host {s : State} (r : HostRequest) : Reachable s → Reachable (s.request r).2

/-- The next state of an outcome, if it is one. -/
def nextState? : StepOutcome → Option State
  | .next s => some s
  | .fault _ => none
  | .refused _ => none

end Sys2Proof.Machine
end

