-- ==== Sys2Proof/WellFormed.lean ====
section
/-! DEFINITION. Well-formed instructions: every operand byte the instruction uses as a register index is a legal index,
0 to 7 (30_encoding.md R95; 10_state.md R26). An ill-formed instruction still encodes, decodes and executes: it raises
RegisterIndexFault (R183). -/

namespace Sys2Proof

/-- The operand bytes the instruction uses as register indices, in the order they are checked (R95, R186).
The immediate of LDI is none of them. -/
def Instr.regIndices : Instr → List Byte
  | .ldi a _ => [a]
  | .prn a => [a]
  | .hlt => []
  | .mul a b => [a, b]
  | .cmp a b => [a, b]

/-- Every register index is in 0 to 7 (R26). -/
def Instr.wellFormed (i : Instr) : Bool :=
  i.regIndices.all fun r => decide (r.toNat ≤ 7)

end Sys2Proof
end

