-- ==== Sys2Proof/Certificates/Slice0/Obligations.lean ====
section
/-! DEFINITION. The statements for the provers, from the numbered rules of spec/. Where a clause rests on one of the spec's
own decisions D<n> (92_eei_decisions.md) or on an entry of the assumption log, the docstring names it. -/

open Sys2Proof Sys2Proof.Machine

/-! ### Encoding (30_encoding.md) -/

/-- Words written out from the opcode map R93 and the assembly table R100, one for each instruction, an operand byte that
equals an opcode and a byte that is no opcode among them. -/
def Obligations.WordsOfTheOpcodeMapDecode : Prop :=
  decodeBytes [0x82#8, 0x00#8, 0x08#8] = some (.ldi 0 8) ∧
  decodeBytes [0x82#8, 0x01#8, 0x82#8] = some (.ldi 1 0x82) ∧
  decodeBytes [0x47#8, 0x07#8, 0x01#8] = some (.prn 7) ∧
  decodeBytes [0x01#8, 0xFF#8, 0xFF#8] = some .hlt ∧
  decodeBytes [0xA2#8, 0x00#8, 0x01#8] = some (.mul 0 1) ∧
  decodeBytes [0xA7#8, 0x05#8, 0x03#8] = some (.cmp 5 3) ∧
  decodeBytes [0xA0#8, 0x00#8, 0x01#8] = none

/-- Decode and encode agree. Decoding the bytes of an instruction gives it back, at every value of every operand byte and
whatever two bytes follow it: the bytes an instruction does not use play no part. And bytes that decode to an instruction
begin with that instruction's bytes, so no two instructions share a word (R91, R93, R95, R96). -/
def Obligations.DecodeAndEncodeAgree : Prop :=
  (∀ (i : Instr) (x y : Byte) (rest : List Byte), decodeBytes (encode i ++ x :: y :: rest) = some i) ∧
  (∀ (i : Instr) (bytes : List Byte), decodeBytes bytes = some i → ∃ rest, bytes = encode i ++ rest)

/-- R90: an instruction is its opcode byte followed by zero, one or two operand bytes, one to three bytes in all, and its
length is fixed by the opcode byte alone. -/
def Obligations.LengthIsFixedByTheOpcodeByte : Prop :=
  ∀ (ir a b : Byte) (i : Instr), decode ir a b = .ok i →
    encode i = [ir, a, b].take i.length ∧ 1 ≤ i.length ∧ i.length ≤ 3 ∧
    ∀ a' b' : Byte, ∃ j, decode ir a' b' = .ok j ∧ j.length = i.length

/-- The decoder rejects, by name, exactly the opcode bytes that are none of the five, and the operand bytes play no part
in that (R93, R97). -/
def Obligations.DecoderRejectsExactlyTheOtherOpcodes : Prop :=
  (∀ ir a b : Byte, decode ir a b = .error (.unknownOpcode ir) ↔
    ir ≠ 0x82 ∧ ir ≠ 0x47 ∧ ir ≠ 0x01 ∧ ir ≠ 0xA2 ∧ ir ≠ 0xA7) ∧
  (∀ ir a b a' b' : Byte, (∃ i, decode ir a b = .ok i) → ∃ j, decode ir a' b' = .ok j)

/-! ### The ALU (42_alu.md) -/

/-- The ALU function ADD is the sum modulo 256, its carry discarded; it is commutative and does not touch `FL`; its worked
values (R151). No instruction reaches it, which is the spec's own decision D1 (R157; log entry 12): what an instruction writes
to a register is the immediate of LDI or the `ALU_MUL` of MUL's two registers. -/
def Obligations.AluAddIsTheSumModulo256 : Prop :=
  (∀ va vb : Byte, (aluAdd va vb).toNat = (va.toNat + vb.toNat) % 256 ∧
    (va.toNat + vb.toNat ≤ 510) ∧
    (aluAdd va vb).toNat = (if va.toNat + vb.toNat ≤ 255 then va.toNat + vb.toNat else va.toNat + vb.toNat - 256) ∧
    aluAdd va vb = aluAdd vb va ∧ alu .add va vb = .result (aluAdd va vb)) ∧
  (∀ (s : State) (d : RegIdx) (va vb : Byte), (s.aluWrite d (alu .add va vb)).fl = s.fl) ∧
  (aluAdd 8 9 = 17 ∧ aluAdd 255 1 = 0 ∧ aluAdd 200 100 = 44 ∧ aluAdd 128 128 = 0 ∧ aluAdd 255 255 = 254 ∧
    aluAdd 0 0 = 0) ∧
  (∀ (i : Instr) (s t : State), exec i s = .next t → ∀ r : RegIdx, t.readReg r ≠ s.readReg r →
    (∃ a imm : Byte, i = .ldi a imm ∧ t.readReg r = imm) ∨
    (∃ (a b : Byte) (p q : RegIdx), i = .mul a b ∧ a.toNat = p.val ∧ b.toNat = q.val ∧
      t.readReg r = aluMul (s.readReg p) (s.readReg q)))

/-- R152: the ALU function MUL is the low eight bits of the exact product, which fits in sixteen; the high eight are
recorded nowhere; it is commutative and does not touch `FL`; the signed reading of the operands gives the same byte; the
worked values. -/
def Obligations.AluMulIsTheLowByteOfTheProduct : Prop :=
  (∀ va vb : Byte, (aluMul va vb).toNat = va.toNat * vb.toNat % 256 ∧
    va.toNat * vb.toNat ≤ 65025 ∧
    aluMul va vb = ((va.setWidth 16 * vb.setWidth 16).extractLsb' 0 8) ∧
    aluMul va vb = aluMul vb va ∧
    aluMul va vb = BitVec.ofInt 8 (va.toInt * vb.toInt) ∧
    alu .mul va vb = .result (aluMul va vb)) ∧
  (∀ (s : State) (d : RegIdx) (va vb : Byte),
    s.aluWrite d (alu .mul va vb) = s.writeReg d (aluMul va vb) ∧ (s.aluWrite d (alu .mul va vb)).fl = s.fl) ∧
  (aluMul 8 9 = 72 ∧ aluMul 0 200 = 0 ∧ aluMul 1 255 = 255 ∧ aluMul 15 17 = 255 ∧ aluMul 16 16 = 0 ∧
    aluMul 128 2 = 0 ∧ aluMul 200 3 = 88 ∧ aluMul 255 255 = 1 ∧ aluMul 255 2 = 254 ∧ aluMul 127 127 = 1)

/-- R153: the ALU function CMP sets exactly one bit, by the unsigned order of its operands; G means the first is the
greater, so exchanging the operands exchanges G and L; it writes no register; the worked values. -/
def Obligations.AluCmpSetsExactlyOneBit : Prop :=
  (∀ va vb : Byte,
    (aluCmp va vb = 1 ↔ va.toNat = vb.toNat) ∧
    (aluCmp va vb = 2 ↔ va.toNat > vb.toNat) ∧
    (aluCmp va vb = 4 ↔ va.toNat < vb.toNat) ∧
    (aluCmp va vb = 1 ∨ aluCmp va vb = 2 ∨ aluCmp va vb = 4) ∧
    (aluCmp va vb = 2 ↔ aluCmp vb va = 4) ∧
    alu .cmp va vb = .flags (aluCmp va vb)) ∧
  (∀ (s : State) (d : RegIdx) (va vb : Byte), SameRegs s (s.aluWrite d (alu .cmp va vb))) ∧
  (aluCmp 5 5 = 1 ∧ aluCmp 9 8 = 2 ∧ aluCmp 8 9 = 4 ∧ aluCmp 0 0 = 1 ∧ aluCmp 255 255 = 1 ∧ aluCmp 0 255 = 4 ∧
    aluCmp 255 0 = 2 ∧ aluCmp 128 127 = 2 ∧ aluCmp 127 128 = 4)

/-- R158: ADD and MUL wrap modulo 256 and are commutative and associative with identities 0 and 1, 0 annihilates, an
overflowing MUL raises no fault and sets no flag, and CMP orders bytes as 0 < 1 < ... < 255. -/
def Obligations.ArithmeticWrapsAndOverflowIsNoError : Prop :=
  (∀ u v w : Byte,
    (aluAdd u v).toNat = (u.toNat + v.toNat) % 256 ∧ (aluMul u v).toNat = (u.toNat * v.toNat) % 256 ∧
    aluAdd u v = aluAdd v u ∧ aluMul u v = aluMul v u ∧
    aluAdd (aluAdd u v) w = aluAdd u (aluAdd v w) ∧ aluMul (aluMul u v) w = aluMul u (aluMul v w) ∧
    aluAdd u 0 = u ∧ aluMul u 1 = u ∧ aluMul u 0 = 0 ∧
    (aluCmp u v = 4 ↔ u.toNat < v.toNat)) ∧
  (∀ (d r : RegIdx) (a b : Byte) (s : State), a.toNat = d.val → b.toNat = r.val →
    ∃ t, exec (.mul a b) s = .next t ∧ t.runState = s.runState ∧ SameFaultRecord s t ∧ t.fl = s.fl)

/-! ### What each instruction does -/

/-- LDI with a legal index completes where an instruction can execute: the register holds the immediate, `pc` grows by 3,
nothing else changes (R140; the bound 253 on `pc` is R122, decision D4). -/
def Obligations.LdiSetsTheRegister : Prop :=
  ∀ (d : RegIdx) (a imm : Byte) (s : State), a.toNat = d.val → s.pc.toNat ≤ 253 →
    ∃ t, exec (.ldi a imm) s = .next t ∧ t.readReg d = imm ∧ t.pc.toNat = s.pc.toNat + 3 ∧
      SameRegsExcept d s t ∧ SameMem s t ∧ t.fl = s.fl ∧ t.runState = s.runState ∧ SameFaultRecord s t ∧ t.out = s.out

/-- PRN with a legal index completes where an instruction can execute: the register's value is appended to OUT, `pc` grows
by 2, nothing else changes (R141; decisions D9 and D4). -/
def Obligations.PrnEmitsTheRegister : Prop :=
  ∀ (r : RegIdx) (a : Byte) (s : State), a.toNat = r.val → s.pc.toNat ≤ 253 →
    ∃ t, exec (.prn a) s = .next t ∧ t.out = s.out ++ [s.readReg r] ∧ t.pc.toNat = s.pc.toNat + 2 ∧
      SameRegs s t ∧ SameMem s t ∧ t.fl = s.fl ∧ t.runState = s.runState ∧ SameFaultRecord s t

/-- HLT completes where an instruction can execute: the core is Stopped with `pc` one past the HLT, nothing else changes
(R170; decisions D18 and D4). -/
def Obligations.HltStopsTheCore : Prop :=
  ∀ s : State, s.pc.toNat ≤ 253 →
    ∃ t, exec .hlt s = .next t ∧ t.runState = .stopped ∧ t.pc.toNat = s.pc.toNat + 1 ∧
      SameRegs s t ∧ SameMem s t ∧ t.fl = s.fl ∧ SameFaultRecord s t ∧ t.out = s.out

/-- MUL with legal indices completes where an instruction can execute: the first register holds the low byte of the product
of the two old values, also when both are one register; `pc` grows by 3, nothing else changes (R155; decision D4). -/
def Obligations.MulKeepsTheLowByte : Prop :=
  ∀ (d r : RegIdx) (a b : Byte) (s : State), a.toNat = d.val → b.toNat = r.val → s.pc.toNat ≤ 253 →
    ∃ t, exec (.mul a b) s = .next t ∧
      (t.readReg d).toNat = (s.readReg d).toNat * (s.readReg r).toNat % 256 ∧ t.pc.toNat = s.pc.toNat + 3 ∧
      SameRegsExcept d s t ∧ SameMem s t ∧ t.fl = s.fl ∧ t.runState = s.runState ∧ SameFaultRecord s t ∧ t.out = s.out

/-- CMP with legal indices completes where an instruction can execute: `FL` is 1, 2 or 4 as the first register is equal to,
greater or less than the second, unsigned, whatever it held; `pc` grows by 3, nothing else changes (R156; decision D4). -/
def Obligations.CmpRecordsTheOrder : Prop :=
  ∀ (p q : RegIdx) (a b : Byte) (s : State), a.toNat = p.val → b.toNat = q.val → s.pc.toNat ≤ 253 →
    ∃ t, exec (.cmp a b) s = .next t ∧
      t.fl = (if (s.readReg p).toNat = (s.readReg q).toNat then 1
        else if (s.readReg p).toNat > (s.readReg q).toNat then 2 else 4) ∧
      t.pc.toNat = s.pc.toNat + 3 ∧
      SameRegs s t ∧ SameMem s t ∧ t.runState = s.runState ∧ SameFaultRecord s t ∧ t.out = s.out

/-- LDI and PRN with an index above 7 take RegisterIndexFault, reporting the operand byte, and write nothing else; the
immediate of LDI is never checked (R183; decisions D5, D6, D19). -/
def Obligations.BadIndexOfLdiAndPrnFaults : Prop :=
  ∀ (a imm : Byte) (s : State), 7 < a.toNat →
    (∃ t, exec (.ldi a imm) s = .next t ∧ FaultEntry s t 4 a.toNat) ∧
    (∃ t, exec (.prn a) s = .next t ∧ FaultEntry s t 4 a.toNat)

/-- MUL and CMP with an index above 7 take RegisterIndexFault, reporting the first operand if that one is out of range and
the second otherwise, and write nothing else (R183, R186; decisions D5, D6, D8, D19). -/
def Obligations.BadIndexOfMulAndCmpFaults : Prop :=
  ∀ (a b : Byte) (s : State), 7 < a.toNat ∨ 7 < b.toNat →
    (∃ t, exec (.mul a b) s = .next t ∧ FaultEntry s t 4 (if 7 < a.toNat then a.toNat else b.toNat)) ∧
    (∃ t, exec (.cmp a b) s = .next t ∧ FaultEntry s t 4 (if 7 < a.toNat then a.toNat else b.toNat))

/-- An instruction of a core that is not Faulted takes a fault exactly when it is ill-formed, that is when one of its
register indices is above 7 (R95, R183; decision D5). -/
def Obligations.InstructionsFaultExactlyWhenIllFormed : Prop :=
  ∀ (i : Instr) (s t : State), s.runState ≠ .faulted → exec i s = .next t →
    (t.runState = .faulted ↔ i.wellFormed = false)

/-- The frame of LDI and MUL: every register but the destination, `FL`, OUT and every byte of memory; and when the
instruction is well-formed the run state and the fault record (R124, R140, R155). -/
def Obligations.FrameOfLdiAndMul : Prop :=
  ∀ (a b : Byte) (i : Instr) (s t : State), i = .ldi a b ∨ i = .mul a b → exec i s = .next t →
    (∀ r : RegIdx, r.val ≠ a.toNat → t.readReg r = s.readReg r) ∧ t.fl = s.fl ∧ t.out = s.out ∧
    (∀ m : Nat, t.mem.read m = s.mem.read m) ∧
    (i.wellFormed = true → t.runState = s.runState ∧ SameFaultRecord s t)

/-- The frame of PRN, CMP and HLT: every register and every byte of memory; `FL` but for CMP; OUT but for PRN; and when the
instruction is well-formed the fault record, and the run state but for HLT (R124, R141, R156, R170). -/
def Obligations.FrameOfPrnCmpAndHlt : Prop :=
  ∀ (a b : Byte) (i : Instr) (s t : State), i = .prn a ∨ i = .cmp a b ∨ i = .hlt → exec i s = .next t →
    (∀ r : RegIdx, t.readReg r = s.readReg r) ∧ (∀ m : Nat, t.mem.read m = s.mem.read m) ∧
    (i ≠ .cmp a b → t.fl = s.fl) ∧ (i ≠ .prn a → t.out = s.out) ∧
    (i.wellFormed = true → SameFaultRecord s t ∧ (i ≠ .hlt → t.runState = s.runState))

/-- R23: the Stack Pointer is an ordinary register. No instruction uses a register it does not name, `x[7]` among them: what
such a register holds changes nothing else and is kept. No register is read as an address: the fetch depends on none. LDI,
PRN, MUL and CMP accept index 7 as any other index, with one effect for all eight: LDI and MUL write the register the first
operand names, PRN emits the register, CMP sets `FL` by the two registers, and no other register is written. The only
distinction of `x[7]` is its reset value. -/
def Obligations.StackPointerIsAnOrdinaryRegister : Prop :=
  (∀ (i : Instr) (s t : State) (r : RegIdx) (v : Byte), (∀ b ∈ i.regIndices, b.toNat ≠ r.val) →
    exec i s = .next t → exec i (s.writeReg r v) = .next (t.writeReg r v)) ∧
  (∀ (s : State) (r : RegIdx) (v : Byte), (s.writeReg r v).fetchInstr = s.fetchInstr) ∧
  (∀ (d r : RegIdx) (a b imm : Byte) (s : State), a.toNat = d.val → b.toNat = r.val →
    (∃ t, exec (.ldi a imm) s = .next t ∧ t.readReg d = imm ∧ SameRegsExcept d s t ∧
      t.runState = s.runState ∧ SameFaultRecord s t) ∧
    (∃ t, exec (.prn a) s = .next t ∧ t.out = s.out ++ [s.readReg d] ∧ SameRegs s t ∧
      t.runState = s.runState ∧ SameFaultRecord s t) ∧
    (∃ t, exec (.mul a b) s = .next t ∧
      (t.readReg d).toNat = (s.readReg d).toNat * (s.readReg r).toNat % 256 ∧ SameRegsExcept d s t ∧
      t.runState = s.runState ∧ SameFaultRecord s t) ∧
    (∃ t, exec (.cmp a b) s = .next t ∧
      t.fl = (if (s.readReg d).toNat = (s.readReg r).toNat then 1
        else if (s.readReg d).toNat > (s.readReg r).toNat then 2 else 4) ∧ SameRegs s t ∧
      t.runState = s.runState ∧ SameFaultRecord s t)) ∧
  ∀ r : RegIdx, State.reset.readReg r = if r = 7 then 0xF4 else 0

/-! ### The step (40_execution_loop.md, 60_exceptions.md) -/

/-- While Running with all three fetch reads in range, a step is `exec` of the instruction that the bytes at `pc`, `pc + 1`
and `pc + 2` decode to (R120, R123; the bound 253 on `pc` is R122, decision D4). -/
def Obligations.StepRunsTheDecodedInstruction : Prop :=
  ∀ (s : State) (i : Instr), s.runState = .running → s.pc.toNat ≤ 253 →
    decode (s.byteAt 0) (s.byteAt 1) (s.byteAt 2) = .ok i → step s = exec i s

/-- THE MODEL'S CHOICE (log entry 1): outside Running, where the core takes no step (R120) and keeps all its state (R198),
a step of the model is idle. -/
def Obligations.StepIsIdleOutsideRunning : Prop :=
  ∀ s : State, s.runState ≠ .running → step s = .next s

/-- At `pc` 254 and above no instruction executes: the step takes MemoryFault, whatever memory holds, reporting address 256,
or `pc` itself where that is above 255 (R122, R182; decisions D3, D4, D6, D19; `pc` above 256 is reached by no run, log
entry 6). -/
def Obligations.FetchAboveMemoryFaults : Prop :=
  ∀ s : State, s.runState = .running → 254 ≤ s.pc.toNat →
    ∃ t, step s = .next t ∧ FaultEntry s t 3 (if s.pc.toNat ≤ 255 then 256 else s.pc.toNat)

/-- Fetching a byte that is none of the five opcodes takes UnknownOpcode, reporting the byte, whatever the operand bytes
are (R97, R181; decisions D6, D19). -/
def Obligations.UnknownOpcodeFaults : Prop :=
  ∀ s : State, s.runState = .running → s.pc.toNat ≤ 253 →
    s.byteAt 0 ≠ 0x82 → s.byteAt 0 ≠ 0x47 → s.byteAt 0 ≠ 0x01 → s.byteAt 0 ≠ 0xA2 → s.byteAt 0 ≠ 0xA7 →
    ∃ t, step s = .next t ∧ FaultEntry s t 1 (s.byteAt 0).toNat

/-- The order in which a step meets its faults: MemoryFault before UnknownOpcode before RegisterIndexFault, and `operand_a`
before `operand_b` (R186; decision D8). -/
def Obligations.FaultPriorityIsTheOrderOfTheStep : Prop :=
  ∀ s t : State, s.runState = .running → step s = .next t → t.runState = .faulted →
    (254 ≤ s.pc.toNat → t.faultKind = 3) ∧
    (s.pc.toNat ≤ 253 → dispatch (s.byteAt 0) = none → t.faultKind = 1 ∧ t.faultInfo.toNat = (s.byteAt 0).toNat) ∧
    (s.pc.toNat ≤ 253 → dispatch (s.byteAt 0) ≠ none →
      t.faultKind = 4 ∧
      t.faultInfo.toNat = (if 7 < (s.byteAt 1).toNat then (s.byteAt 1).toNat else (s.byteAt 2).toNat))

/-- Faults are precise: a step that ends Faulted has changed no register, flag, memory byte or `pc`, has emitted nothing,
and `FAULT_PC` is its `pc` (R188, R187; decision D6). -/
def Obligations.FaultsArePrecise : Prop :=
  ∀ s t : State, s.runState = .running → step s = .next t → t.runState = .faulted →
    t.faultPc = s.pc ∧ t.pc = s.pc ∧ SameRegs s t ∧ SameMem s t ∧ t.fl = s.fl ∧ t.out = s.out

/-- A step of a Running core ends Stopped exactly when it executed HLT, Faulted exactly when a fetch is out of range, the
opcode is unknown or a register index it uses is above 7, and Running otherwise (R36, R126, R185; decision D6). -/
def Obligations.RunStateTransitionsOfAStep : Prop :=
  ∀ s t : State, s.runState = .running → step s = .next t →
    (t.runState = .stopped ↔ s.pc.toNat ≤ 253 ∧ s.byteAt 0 = 0x01) ∧
    (t.runState = .faulted ↔ 254 ≤ s.pc.toNat ∨ dispatch (s.byteAt 0) = none ∨
      ((s.byteAt 0 = 0x82 ∨ s.byteAt 0 = 0x47) ∧ 7 < (s.byteAt 1).toNat) ∨
      ((s.byteAt 0 = 0xA2 ∨ s.byteAt 0 = 0xA7) ∧ (7 < (s.byteAt 1).toNat ∨ 7 < (s.byteAt 2).toNat)))

/-- `pc` starts at 0; an instruction that completes adds its declared length, LDI 3, PRN 2, HLT 1, MUL 3, CMP 3; one that
faults does not advance it (R28, R125; decisions D2, D6, D18). -/
def Obligations.PcAdvancesByTheDeclaredLengthOnly : Prop :=
  State.reset.pc = 0 ∧
  ∀ s t : State, s.runState = .running → step s = .next t →
    (t.runState = .faulted → t.pc = s.pc) ∧
    (t.runState ≠ .faulted →
      t.pc.toNat = s.pc.toNat + (if s.byteAt 0 = 0x82 then 3 else if s.byteAt 0 = 0x47 then 2
        else if s.byteAt 0 = 0x01 then 1 else if s.byteAt 0 = 0xA2 then 3 else 3) ∧
      (s.byteAt 0 = 0x82 ∨ s.byteAt 0 = 0x47 ∨ s.byteAt 0 = 0x01 ∨ s.byteAt 0 = 0xA2 ∨ s.byteAt 0 = 0xA7))

/-- `pc` never decreases along any number of steps (R29; decision D2: it does not wrap). -/
def Obligations.PcNeverDecreasesAlongARun : Prop :=
  ∀ (k : Nat) (s t : State), Host.Core.run core k s = .next t → s.pc.toNat ≤ t.pc.toNat

/-- R32: `FL` is written only by CMP, which writes the whole register whatever it held; LDI, PRN, HLT and MUL leave it;
reset leaves it 0. -/
def Obligations.FlagsAreWrittenOnlyByCmp : Prop :=
  (∀ s t : State, step s = .next t → t.fl ≠ s.fl → s.runState = .running ∧ s.byteAt 0 = 0xA7) ∧
  (∀ (p q : RegIdx) (a b : Byte) (s : State), a.toNat = p.val → b.toNat = q.val →
    ∃ f : Byte, ∀ old : Byte, ∃ t, exec (.cmp a b) { s with fl := old } = .next t ∧ t.fl = f) ∧
  (∀ (i : Instr) (s t : State), (∀ a b, i ≠ .cmp a b) → exec i s = .next t → t.fl = s.fl) ∧
  State.reset.fl = 0 ∧ ∀ s : State, s.hostReset.fl = 0

/-- A step changes a register only by LDI or MUL, and only the register that `operand_a` names (R24, R140, R155). -/
def Obligations.RegistersAreWrittenOnlyByLdiAndMul : Prop :=
  ∀ (s t : State) (r : RegIdx), step s = .next t → t.readReg r ≠ s.readReg r →
    s.runState = .running ∧ s.pc.toNat ≤ 253 ∧ (s.byteAt 0 = 0x82 ∨ s.byteAt 0 = 0xA2) ∧ (s.byteAt 1).toNat = r.val

/-- A step changes OUT only by PRN, which appends the one byte its register holds; what was emitted stays (R40, R141;
decision D9). -/
def Obligations.OutputGrowsOnlyByPrn : Prop :=
  ∀ s t : State, step s = .next t → t.out = s.out ∨
    (s.runState = .running ∧ s.pc.toNat ≤ 253 ∧ s.byteAt 0 = 0x47 ∧
      ∃ r : RegIdx, (s.byteAt 1).toNat = r.val ∧ t.out = s.out ++ [s.readReg r])

/-- R38: memory is 256 cells, zero at reset, changed by Load and by no opcode. -/
def Obligations.MemoryIsChangedByNoOpcode : Prop :=
  (∀ a : Nat, State.reset.mem.read a = 0) ∧
  (∀ s : State, ∀ a : Nat, (∃ v, s.memRead a = .ok v) ↔ a < 256) ∧
  (∀ s t : State, step s = .next t → SameMem s t) ∧
  (∀ (s : State) (bytes : List Byte), s.mem.wf = true → s.runState = .stopped → bytes.length ≤ 256 →
    ∀ (k : Nat) (hk : k < bytes.length), (s.hostLoad bytes).2.mem.read k = bytes[k])

/-- No step reads `FL`: from states that differ in `FL` alone a step gives states that differ in `FL` at most. Where it
executes a CMP that completes, the `FL` it writes is the same whatever `FL` held; otherwise, a CMP that faults among the
cases, each `FL` is kept as it was (R34, R32). -/
def Obligations.NoStepReadsTheFlags : Prop :=
  ∀ (s t : State) (v : Byte), step s = .next t →
    ∃ f : Byte, step { s with fl := v } = .next { t with fl := f } ∧
      (if s.runState = .running ∧ s.byteAt 0 = 0xA7 ∧ t.runState ≠ .faulted then f = t.fl
        else t.fl = s.fl ∧ f = v)

/-- No step reads OUT: it only appends to it, the same bytes whatever it held (R40). -/
def Obligations.NoStepReadsTheOutput : Prop :=
  ∀ (s t : State) (earlier : List Byte), step s = .next t →
    ∃ emitted : List Byte, emitted.length ≤ 1 ∧ t.out = s.out ++ emitted ∧
      step { s with out := earlier } = .next { t with out := earlier ++ emitted }

/-- The candidate operand bytes an instruction does not use have no effect: memories that agree on the opcode and on the
declared length of its instruction give the same step (R96, R65; decision D21). -/
def Obligations.UnusedOperandBytesHaveNoEffect : Prop :=
  ∀ (s t : State) (m : Memory), m.read s.pc.toNat = s.byteAt 0 →
    (∀ o, dispatch (s.byteAt 0) = some o → ∀ k, k < o.length → m.read (s.pc.toNat + k) = s.byteAt k) →
    step s = .next t → step { s with mem := m } = .next { t with mem := m }

/-- UnsupportedOperation is raised by no step: code 2 never comes into `FAULT_KIND` (R154, R184; decision D22). -/
def Obligations.UnsupportedOperationIsNeverRaised : Prop :=
  ∀ s : State, s.faultKind ≠ 2 →
    (∀ t, step s = .next t → t.faultKind ≠ 2) ∧ ∀ r : HostRequest, (s.request r).2.faultKind ≠ 2

/-- Faulted is sticky: no number of steps, no Load and no Run changes anything; Reset leaves it and clears the record
(R189, R190; decisions D6, D11, D14, D15; that a step is idle is log entry 1). -/
def Obligations.FaultedIsLeftOnlyByReset : Prop :=
  ∀ s : State, s.runState = .faulted →
    (∀ k, Host.Core.run core k s = .next s) ∧ (∀ bytes, s.hostLoad bytes = (.refused, s)) ∧
    s.hostRun = (.ignored, s) ∧
    s.hostReset.runState = .stopped ∧ s.hostReset.faultKind = 0 ∧ s.hostReset.faultPc = 0 ∧ s.hostReset.faultInfo = 0

/-- A register write is seen by the very next instruction: LDI then PRN of the same register emits the immediate (R230;
the bounds on `pc` are decision D4). -/
def Obligations.LdiIsSeenByTheNextPrn : Prop :=
  ∀ (r : RegIdx) (a b : Byte) (s : State), s.runState = .running → s.pc.toNat ≤ 250 → a.toNat = r.val →
    s.byteAt 0 = 0x82 → s.byteAt 1 = a → s.byteAt 2 = b → s.byteAt 3 = 0x47 → s.byteAt 4 = a →
    ∃ t, Host.Core.run core 2 s = .next t ∧ t.out = s.out ++ [b] ∧ t.readReg r = b ∧ t.pc.toNat = s.pc.toNat + 5 ∧
      t.runState = .running

/-! ### Invariants and the end of a run -/

/-- The invariant holds at reset (R43). -/
def Obligations.ResetMeetsTheInvariant : Prop :=
  State.reset.Inv

/-- Every step keeps the invariant: memory canonical, `FL` one of 0, 1, 2, 4 (R33), `pc` at most 256 (R29), the fault
record 0 outside Faulted (R37) and true in Faulted (R68, R180 to R183, R188; decisions D2, D3, D5, D6, D7, D19). -/
def Obligations.StepKeepsTheInvariant : Prop :=
  ∀ s t : State, s.Inv → step s = .next t → t.Inv

/-- Every host request keeps the invariant (R227; decisions D10, D11, D14, D15). -/
def Obligations.RequestsKeepTheInvariant : Prop :=
  ∀ (s : State) (r : HostRequest), s.Inv → (s.request r).2.Inv

/-- Every state a core and its host reach from reset meets the invariant (R11, R227; decisions D2, D3, D5, D6, D7, D10, D11,
D14, D15, D19), and from every one of them `step` answers a next state that is reachable again. Two parts are THE MODEL'S
CHOICE: that `step` answers a next state also while Stopped or Faulted, where the core takes no step (R120), is the idle step of
log entry 1; that steps and host requests interleave in any order is `Reachable` of log entry 4. -/
def Obligations.ReachableStatesMeetTheInvariant : Prop :=
  ∀ s : State, Reachable s → s.Inv ∧ ∃ t, step s = .next t ∧ Reachable t

/-- Every run ends: from any Running state, 128 steps lead to a state that is not Running; and from one that meets the
invariant the run has ended normally, by HLT with a clear record, or in a fault of kind 1, 3 or 4 (R128, R228; decisions
D2, D3, D4, D6; steps after the end are idle, log entry 1). -/
def Obligations.EveryRunEndsWithin128Steps : Prop :=
  ∀ s : State, s.runState = .running →
    ∃ t, Host.Core.run core 128 s = .next t ∧ t.runState ≠ .running ∧ (s.Inv → t.endedNormally ∨ t.endedInFault)

/-- Canonical memories that read alike at every address are equal data (the model's representation, log entry 7). -/
def Obligations.CanonicalMemoriesThatReadAlikeAreEqual : Prop :=
  ∀ m n : Memory, m.wf = true → n.wf = true → (∀ a : Nat, m.read a = n.read a) → m = n

/-! ### Reset and the host (70_reset_and_hazards.md, 20_memory.md section 5) -/

/-- The reset values (R43; the fault record's are decision D6; OUT empty when recording starts, R40, log entry 3). -/
def Obligations.ResetLeavesTheStatedValues : Prop :=
  (∀ a : Nat, State.reset.mem.read a = 0) ∧
  (∀ r : RegIdx, State.reset.readReg r = if r = 7 then 0xF4 else 0) ∧
  State.reset.fl = 0 ∧ State.reset.pc = 0 ∧ State.reset.runState = .stopped ∧
  State.reset.faultKind = 0 ∧ State.reset.faultPc = 0 ∧ State.reset.faultInfo = 0 ∧ State.reset.out = []

/-- A Reset in any run state sets every piece of core state to its reset value and leaves what was already emitted (R220,
R40; decision D14). -/
def Obligations.HostResetKeepsOnlyTheOutput : Prop :=
  ∀ s : State, s.hostReset.out = s.out ∧ { s.hostReset with out := [] } = State.reset

/-- An accepted Load of up to 256 bytes puts byte `k` at address `k`, leaves every other cell, and changes nothing else; the
empty image changes nothing (R75, R76, R224; decisions D10, D15). -/
def Obligations.LoadWritesTheImageAndNothingElse : Prop :=
  ∀ (s : State) (bytes : List Byte), s.mem.wf = true → s.runState = .stopped → bytes.length ≤ 256 →
    ∃ t, s.hostLoad bytes = (.accepted, t) ∧
      (∀ (k : Nat) (hk : k < bytes.length), t.mem.read k = bytes[k]) ∧
      (∀ a : Nat, bytes.length ≤ a → t.mem.read a = s.mem.read a) ∧
      t = { s with mem := t.mem } ∧ (bytes = [] → t = s)

/-- A Load of more than 256 bytes while Stopped is refused as a whole with LoadOverflow, and any Load while Running or
Faulted is refused; nothing changes (R75, R224, R227; decisions D10, D15; the names of the replies are log entry 9). -/
def Obligations.RefusedLoadsChangeNothing : Prop :=
  ∀ (s : State) (bytes : List Byte),
    (s.runState = .stopped → 256 < bytes.length → s.hostLoad bytes = (.loadOverflow, s)) ∧
    (s.runState ≠ .stopped → s.hostLoad bytes = (.refused, s))

/-- A Run while Stopped sets RunState to Running and changes nothing else; while Running or Faulted it is ignored (R225,
R227; decision D11; the names of the replies are log entry 9). -/
def Obligations.RunChangesOnlyTheRunState : Prop :=
  ∀ s : State,
    (s.runState = .stopped → s.hostRun = (.accepted, { s with runState := .running })) ∧
    (s.runState ≠ .stopped → s.hostRun = (.ignored, s))

/-- A Run after a HLT resumes at the byte after the HLT, with registers, `FL`, memory and OUT as they were (R226; decisions
D11, D18). -/
def Obligations.RunAfterHltResumesAtTheNextByte : Prop :=
  ∀ s t : State, s.runState = .running → s.pc.toNat ≤ 253 → s.byteAt 0 = 0x01 → step s = .next t →
    ∃ u, t.hostRun = (.accepted, u) ∧ u.runState = .running ∧ u.pc.toNat = s.pc.toNat + 1 ∧
      SameRegs s u ∧ SameMem s u ∧ u.fl = s.fl ∧ u.out = s.out ∧ SameFaultRecord s u

/-- R222: the entry point is address 0. After Reset, Load and Run the image lies from address 0 on, `pc` is 0, and the
instruction that the image's first bytes encode is the first one executed. -/
def Obligations.FirstInstructionIsTheFirstOfTheImage : Prop :=
  ∀ (s : State) (i : Instr) (tail : List Byte), (encode i ++ tail).length ≤ 256 →
    ∃ u, ((s.hostReset.hostLoad (encode i ++ tail)).2.hostRun).2 = u ∧ u.pc = 0 ∧ u.runState = .running ∧
      (∀ (k : Nat) (hk : k < (encode i ++ tail).length), u.mem.read k = (encode i ++ tail)[k]) ∧
      step u = exec i u

/-- The environment renders one more emitted byte as its decimal numeral and a newline after what it has rendered (R142;
decision D9; log entry 11). -/
def Obligations.RenderingAppendsOneLinePerByte : Prop :=
  renderOut [] = "" ∧ renderOut [72] = "72\n" ∧ renderOut [0] = "0\n" ∧ renderOut [255] = "255\n" ∧
  ∀ (out : List Byte) (v : Byte), renderOut (out ++ [v]) = renderOut out ++ (toString v.toNat ++ "\n")

/-- THE MODEL'S OWN INTERFACE (log entry 4): a table word that decodes to an instruction is what the next step executes once
it is placed, from any state whose memory is canonical. -/
def Obligations.PlacedWordIsExecutedNext : Prop :=
  ∀ (s : State) (nbits w : Nat) (i : Instr), s.mem.wf = true → decodeTableWord nbits w = some i →
    step (s.withFetchWord nbits w) = exec i (s.withFetchWord nbits w)
end

