-- ==== Sys2Proof/Laws/Decode.lean ====
section
/-! SUPPORT. The laws of the Dispatcher and the decoder: what each can answer. -/

namespace Sys2Proof

/-- The Dispatcher resolves each opcode's byte to that opcode (R93). -/
@[simp] theorem dispatch_byte (o : Opcode) : dispatch o.byte = some o := by
  cases o <;> rfl

/-- The Dispatcher resolves no other byte to an opcode (R97). -/
theorem byte_of_dispatch {ir : Byte} {o : Opcode} (h : dispatch ir = some o) : ir = o.byte := by
  unfold dispatch at h
  split at h <;> first | (cases h; rfl) | cases h

/-- The instruction a resolved opcode makes of the two candidate operand bytes (R96). -/
def Opcode.instr : Opcode → Byte → Byte → Instr
  | .ldi, a, b => .ldi a b
  | .prn, a, _ => .prn a
  | .hlt, _, _ => .hlt
  | .mul, a, b => .mul a b
  | .cmp, a, b => .cmp a b

/-- All the decoder can answer for a resolved opcode. -/
theorem decode_some {ir a b : Byte} {o : Opcode} (h : dispatch ir = some o) : decode ir a b = .ok (o.instr a b) := by
  unfold decode
  rw [h]
  cases o <;> rfl

/-- All the decoder can answer for an unresolved opcode. -/
theorem decode_none {ir : Byte} (a b : Byte) (h : dispatch ir = none) :
    decode ir a b = .error (.unknownOpcode ir) := by
  unfold decode
  rw [h]

@[simp] theorem Opcode.instr_opcode (o : Opcode) (a b : Byte) : (o.instr a b).opcode = o := by
  cases o <;> rfl

end Sys2Proof
end

