-- ==== Sys2Proof/Laws/Memory.lean ====
section
/-! SUPPORT. The laws of memory: what a write and a load do to every read, that both keep the canonical form, and that
canonical memories with equal reads are equal data. -/

namespace Sys2Proof.Machine

@[simp] theorem Memory.read_nil (a : Nat) : Memory.read [] a = 0 := rfl

theorem Memory.read_cons (k a : Nat) (v : Byte) (rest : Memory) :
    Memory.read ((k, v) :: rest) a = if a = k then v else Memory.read rest a := rfl

theorem Memory.wfFrom_cons (lo k : Nat) (v : Byte) (rest : Memory) :
    Memory.wfFrom lo ((k, v) :: rest) = true ↔
      lo ≤ k ∧ k < 256 ∧ v ≠ 0 ∧ Memory.wfFrom (k + 1) rest = true := by
  simp [Memory.wfFrom, and_assoc]

/-- A canonical list from `lo` on names no address below `lo`. -/
theorem Memory.read_below {m : Memory} {lo a : Nat} (h : Memory.wfFrom lo m = true) (ha : a < lo) : m.read a = 0 := by
  induction m generalizing lo with
  | nil => rfl
  | cons c rest ih =>
    obtain ⟨k, v⟩ := c
    rw [Memory.wfFrom_cons] at h
    have hk : a ≠ k := by omega
    simpa [Memory.read_cons, hk] using ih h.2.2.2 (by omega)

/-- Canonical from a higher address is canonical from a lower one. -/
theorem Memory.wfFrom_mono {m : Memory} {lo lo' : Nat} (h : Memory.wfFrom lo m = true) (hl : lo' ≤ lo) :
    Memory.wfFrom lo' m = true := by
  cases m with
  | nil => rfl
  | cons c rest =>
    obtain ⟨k, v⟩ := c
    rw [Memory.wfFrom_cons] at h ⊢
    exact ⟨by omega, h.2⟩

/-- What `put` does to every read, of a canonical memory. -/
theorem Memory.read_put {m : Memory} {lo : Nat} (h : Memory.wfFrom lo m = true) (a b : Nat) (v : Byte) :
    (m.put a v).read b = if b = a then v else m.read b := by
  induction m generalizing lo with
  | nil =>
    by_cases hv : v = Config.memReset <;> by_cases hb : b = a <;> simp [Memory.put, hv, hb, Memory.read_cons]
  | cons c rest ih =>
    obtain ⟨k, w⟩ := c
    rw [Memory.wfFrom_cons] at h
    have hbelow : ∀ x, x < k + 1 → Memory.read rest x = 0 := fun x => Memory.read_below h.2.2.2
    simp only [Memory.put]
    split
    · split
      · split
        · next hak hv hba => subst hba; rw [Memory.read_cons, if_neg (by omega), hbelow _ (by omega)]; exact hv.symm
        · rfl
      · simp only [Memory.read_cons]
    · split
      · next hka hk =>
        subst hk
        split
        · split
          · next hv hba => subst hba; rw [hbelow _ (by omega)]; exact hv.symm
          · next hba => simp [Memory.read_cons, hba]
        · split
          · next hba => simp [Memory.read_cons, hba]
          · next hba => simp [Memory.read_cons, hba]
      · rw [Memory.read_cons, Memory.read_cons, ih h.2.2.2]
        split
        · next hk => rw [if_neg (by omega)]
        · rfl

/-- `put` below 256 keeps the canonical form. -/
theorem Memory.put_wfFrom {m : Memory} {lo a : Nat} (h : Memory.wfFrom lo m = true) (hl : lo ≤ a) (ha : a < 256)
    (v : Byte) : Memory.wfFrom lo (m.put a v) = true := by
  induction m generalizing lo with
  | nil =>
    unfold Memory.put
    split
    · rfl
    · next hv => rw [Memory.wfFrom_cons]; exact ⟨hl, ha, hv, rfl⟩
  | cons c rest ih =>
    obtain ⟨k, w⟩ := c
    have h' := h
    rw [Memory.wfFrom_cons] at h
    obtain ⟨h1, h2, h3, h4⟩ := h
    simp only [Memory.put]
    split
    · split
      · exact h'
      · next hak hv =>
        rw [Memory.wfFrom_cons, Memory.wfFrom_cons]
        exact ⟨hl, ha, hv, by omega, h2, h3, h4⟩
    · split
      · next hk =>
        split
        · exact Memory.wfFrom_mono h4 (by omega)
        · next hv => rw [Memory.wfFrom_cons]; exact ⟨hl, ha, hv, hk ▸ h4⟩
      · rw [Memory.wfFrom_cons]; exact ⟨h1, h2, h3, ih h4 (by omega)⟩

/-- A write keeps the canonical form (R62). -/
theorem Memory.write_wf {m : Memory} (h : m.wf = true) (a : Nat) (v : Byte) : (m.write a v).wf = true := by
  unfold Memory.write
  split
  · next ha => exact Memory.put_wfFrom h (Nat.zero_le a) ha v
  · exact h

/-- What a write does to every read (R62). -/
theorem Memory.read_write {m : Memory} (h : m.wf = true) (a b : Nat) (v : Byte) :
    (m.write a v).read b = if b = a ∧ a < 256 then v else m.read b := by
  unfold Memory.write
  by_cases ha : a < 256
  · rw [if_pos ha, Memory.read_put h]; simp [ha]
  · rw [if_neg ha]; simp [ha]

/-- A load keeps the canonical form (R75). -/
theorem Memory.load_wf {m : Memory} (h : m.wf = true) (a : Nat) (bytes : List Byte) : (m.load a bytes).wf = true := by
  induction bytes generalizing m a with
  | nil => exact h
  | cons b bytes ih => exact ih (Memory.write_wf h a b) (a + 1)

/-- A load leaves an address outside its range as it was (R75, R76). -/
theorem Memory.read_load_outside {m : Memory} (h : m.wf = true) {a b : Nat} {bytes : List Byte}
    (hb : b < a ∨ a + bytes.length ≤ b) : (m.load a bytes).read b = m.read b := by
  induction bytes generalizing m a with
  | nil => rfl
  | cons v bytes ih =>
    rw [List.length_cons] at hb
    have hne : ¬ (b = a ∧ a < 256) := by omega
    simp only [Memory.load]
    rw [ih (Memory.write_wf h a v) (by omega), Memory.read_write h, if_neg hne]

/-- A load puts byte `k` at address `a + k` (R63, R75). -/
theorem Memory.read_load_inside {m : Memory} (h : m.wf = true) {a : Nat} {bytes : List Byte}
    (hn : a + bytes.length ≤ 256) {k : Nat} (hk : k < bytes.length) :
    (m.load a bytes).read (a + k) = bytes[k] := by
  induction bytes generalizing m a k with
  | nil => simp at hk
  | cons v bytes ih =>
    rw [List.length_cons] at hn hk
    cases k with
    | zero =>
      simp only [Memory.load, Nat.add_zero, List.getElem_cons_zero]
      rw [Memory.read_load_outside (Memory.write_wf h a v) (by omega), Memory.read_write h,
        if_pos ⟨rfl, by omega⟩]
    | succ k =>
      have := ih (Memory.write_wf h a v) (a := a + 1) (by omega) (k := k) (by omega)
      simpa [Memory.load, Nat.add_assoc, Nat.add_comm 1] using this

/-- The reset memory has the canonical form. -/
theorem Memory.nil_wf : Memory.wf [] = true := rfl

end Sys2Proof.Machine
end

