-- ==== Sys2Proof/Laws/State.lean ====
section
/-! SUPPORT. One lemma per field per update of the state, so that no proof unfolds a record update. -/

namespace Sys2Proof.Machine

@[simp] theorem State.writeReg_mem (s : State) (i : RegIdx) (v : Byte) : (s.writeReg i v).mem = s.mem := rfl
@[simp] theorem State.writeReg_x (s : State) (i : RegIdx) (v : Byte) : (s.writeReg i v).x = s.x.set i v := rfl
@[simp] theorem State.writeReg_fl (s : State) (i : RegIdx) (v : Byte) : (s.writeReg i v).fl = s.fl := rfl
@[simp] theorem State.writeReg_pc (s : State) (i : RegIdx) (v : Byte) : (s.writeReg i v).pc = s.pc := rfl
@[simp] theorem State.writeReg_runState (s : State) (i : RegIdx) (v : Byte) : (s.writeReg i v).runState = s.runState := rfl
@[simp] theorem State.writeReg_faultKind (s : State) (i : RegIdx) (v : Byte) : (s.writeReg i v).faultKind = s.faultKind := rfl
@[simp] theorem State.writeReg_faultPc (s : State) (i : RegIdx) (v : Byte) : (s.writeReg i v).faultPc = s.faultPc := rfl
@[simp] theorem State.writeReg_faultInfo (s : State) (i : RegIdx) (v : Byte) : (s.writeReg i v).faultInfo = s.faultInfo := rfl
@[simp] theorem State.writeReg_out (s : State) (i : RegIdx) (v : Byte) : (s.writeReg i v).out = s.out := rfl

@[simp] theorem State.writeFlags_mem (s : State) (v : Byte) : (s.writeFlags v).mem = s.mem := rfl
@[simp] theorem State.writeFlags_x (s : State) (v : Byte) : (s.writeFlags v).x = s.x := rfl
@[simp] theorem State.writeFlags_fl (s : State) (v : Byte) : (s.writeFlags v).fl = v := rfl
@[simp] theorem State.writeFlags_pc (s : State) (v : Byte) : (s.writeFlags v).pc = s.pc := rfl
@[simp] theorem State.writeFlags_runState (s : State) (v : Byte) : (s.writeFlags v).runState = s.runState := rfl
@[simp] theorem State.writeFlags_faultKind (s : State) (v : Byte) : (s.writeFlags v).faultKind = s.faultKind := rfl
@[simp] theorem State.writeFlags_faultPc (s : State) (v : Byte) : (s.writeFlags v).faultPc = s.faultPc := rfl
@[simp] theorem State.writeFlags_faultInfo (s : State) (v : Byte) : (s.writeFlags v).faultInfo = s.faultInfo := rfl
@[simp] theorem State.writeFlags_out (s : State) (v : Byte) : (s.writeFlags v).out = s.out := rfl

@[simp] theorem State.emit_mem (s : State) (v : Byte) : (s.emit v).mem = s.mem := rfl
@[simp] theorem State.emit_x (s : State) (v : Byte) : (s.emit v).x = s.x := rfl
@[simp] theorem State.emit_fl (s : State) (v : Byte) : (s.emit v).fl = s.fl := rfl
@[simp] theorem State.emit_pc (s : State) (v : Byte) : (s.emit v).pc = s.pc := rfl
@[simp] theorem State.emit_runState (s : State) (v : Byte) : (s.emit v).runState = s.runState := rfl
@[simp] theorem State.emit_faultKind (s : State) (v : Byte) : (s.emit v).faultKind = s.faultKind := rfl
@[simp] theorem State.emit_faultPc (s : State) (v : Byte) : (s.emit v).faultPc = s.faultPc := rfl
@[simp] theorem State.emit_faultInfo (s : State) (v : Byte) : (s.emit v).faultInfo = s.faultInfo := rfl
@[simp] theorem State.emit_out (s : State) (v : Byte) : (s.emit v).out = s.out ++ [v] := rfl

@[simp] theorem State.advance_mem (s : State) (len : Nat) : (s.advance len).mem = s.mem := rfl
@[simp] theorem State.advance_x (s : State) (len : Nat) : (s.advance len).x = s.x := rfl
@[simp] theorem State.advance_fl (s : State) (len : Nat) : (s.advance len).fl = s.fl := rfl
@[simp] theorem State.advance_pc (s : State) (len : Nat) : (s.advance len).pc = s.pc + BitVec.ofNat 9 len := rfl
@[simp] theorem State.advance_runState (s : State) (len : Nat) : (s.advance len).runState = s.runState := rfl
@[simp] theorem State.advance_faultKind (s : State) (len : Nat) : (s.advance len).faultKind = s.faultKind := rfl
@[simp] theorem State.advance_faultPc (s : State) (len : Nat) : (s.advance len).faultPc = s.faultPc := rfl
@[simp] theorem State.advance_faultInfo (s : State) (len : Nat) : (s.advance len).faultInfo = s.faultInfo := rfl
@[simp] theorem State.advance_out (s : State) (len : Nat) : (s.advance len).out = s.out := rfl

@[simp] theorem State.setRunState_mem (s : State) (r : RunState) : (s.setRunState r).mem = s.mem := rfl
@[simp] theorem State.setRunState_x (s : State) (r : RunState) : (s.setRunState r).x = s.x := rfl
@[simp] theorem State.setRunState_fl (s : State) (r : RunState) : (s.setRunState r).fl = s.fl := rfl
@[simp] theorem State.setRunState_pc (s : State) (r : RunState) : (s.setRunState r).pc = s.pc := rfl
@[simp] theorem State.setRunState_runState (s : State) (r : RunState) : (s.setRunState r).runState = r := rfl
@[simp] theorem State.setRunState_faultKind (s : State) (r : RunState) : (s.setRunState r).faultKind = s.faultKind := rfl
@[simp] theorem State.setRunState_faultPc (s : State) (r : RunState) : (s.setRunState r).faultPc = s.faultPc := rfl
@[simp] theorem State.setRunState_faultInfo (s : State) (r : RunState) : (s.setRunState r).faultInfo = s.faultInfo := rfl
@[simp] theorem State.setRunState_out (s : State) (r : RunState) : (s.setRunState r).out = s.out := rfl

@[simp] theorem State.raise_mem (s : State) (f : CoreFault) : (s.raise f).mem = s.mem := rfl
@[simp] theorem State.raise_x (s : State) (f : CoreFault) : (s.raise f).x = s.x := rfl
@[simp] theorem State.raise_fl (s : State) (f : CoreFault) : (s.raise f).fl = s.fl := rfl
@[simp] theorem State.raise_pc (s : State) (f : CoreFault) : (s.raise f).pc = s.pc := rfl
@[simp] theorem State.raise_runState (s : State) (f : CoreFault) : (s.raise f).runState = .faulted := rfl
@[simp] theorem State.raise_faultKind (s : State) (f : CoreFault) : (s.raise f).faultKind = f.code := rfl
@[simp] theorem State.raise_faultPc (s : State) (f : CoreFault) : (s.raise f).faultPc = s.pc := rfl
@[simp] theorem State.raise_faultInfo (s : State) (f : CoreFault) : (s.raise f).faultInfo = f.info := rfl
@[simp] theorem State.raise_out (s : State) (f : CoreFault) : (s.raise f).out = s.out := rfl

@[simp] theorem State.hostReset_mem (s : State) : s.hostReset.mem = State.reset.mem := rfl
@[simp] theorem State.hostReset_x (s : State) : s.hostReset.x = State.reset.x := rfl
@[simp] theorem State.hostReset_fl (s : State) : s.hostReset.fl = State.reset.fl := rfl
@[simp] theorem State.hostReset_pc (s : State) : s.hostReset.pc = State.reset.pc := rfl
@[simp] theorem State.hostReset_runState (s : State) : s.hostReset.runState = State.reset.runState := rfl
@[simp] theorem State.hostReset_faultKind (s : State) : s.hostReset.faultKind = State.reset.faultKind := rfl
@[simp] theorem State.hostReset_faultPc (s : State) : s.hostReset.faultPc = State.reset.faultPc := rfl
@[simp] theorem State.hostReset_faultInfo (s : State) : s.hostReset.faultInfo = State.reset.faultInfo := rfl
@[simp] theorem State.hostReset_out (s : State) : s.hostReset.out = s.out := rfl

@[simp] theorem State.writeFlags_readReg (s : State) (v : Byte) (j : RegIdx) : (s.writeFlags v).readReg j = s.readReg j := rfl
@[simp] theorem State.emit_readReg (s : State) (v : Byte) (j : RegIdx) : (s.emit v).readReg j = s.readReg j := rfl
@[simp] theorem State.advance_readReg (s : State) (len : Nat) (j : RegIdx) : (s.advance len).readReg j = s.readReg j := rfl
@[simp] theorem State.setRunState_readReg (s : State) (r : RunState) (j : RegIdx) : (s.setRunState r).readReg j = s.readReg j := rfl
@[simp] theorem State.raise_readReg (s : State) (f : CoreFault) (j : RegIdx) : (s.raise f).readReg j = s.readReg j := rfl

/-- Reading a register after writing one (R21): the value written, or the old value of another register. -/
@[simp] theorem State.writeReg_readReg (s : State) (i j : RegIdx) (v : Byte) :
    (s.writeReg i v).readReg j = if j = i then v else s.readReg j := by
  unfold State.writeReg State.readReg
  by_cases h : j = i
  · subst h; simp
  · have : (i : Nat) ≠ j := fun e => h (Fin.ext e.symm)
    simp [h, this]

end Sys2Proof.Machine
end

