-- ==== Sys2Proof/Laws/Ops.lean ====
section
/-! SUPPORT. One lemma per shared operation that says all it can do. -/

namespace Sys2Proof.Machine

theorem regIndex_of_le {b : Byte} (h : b.toNat < 8) : regIndex b = some ⟨b.toNat, h⟩ := by
  simp [regIndex, h]

theorem regIndex_of_gt {b : Byte} (h : 7 < b.toNat) : regIndex b = none := by
  have : ¬ b.toNat < 8 := by omega
  simp [regIndex, this]

/-- All a register-index check can do (R183): go on with the index the byte is, or raise and write nothing else. -/
theorem State.withReg_cases (s : State) (b : Byte) (handler : RegIdx → State) :
    (∃ h : b.toNat < 8, s.withReg b handler = handler ⟨b.toNat, h⟩) ∨
    (7 < b.toNat ∧ s.withReg b handler = s.raise (.registerIndexFault b)) := by
  by_cases h : b.toNat < 8
  · exact .inl ⟨h, by rw [State.withReg, regIndex_of_le h]⟩
  · exact .inr ⟨by omega, by rw [State.withReg, regIndex_of_gt (by omega)]⟩

theorem State.withReg_of_le {s : State} {b : Byte} (h : b.toNat < 8) (handler : RegIdx → State) :
    s.withReg b handler = handler ⟨b.toNat, h⟩ := by
  rw [State.withReg, regIndex_of_le h]

theorem State.withReg_of_gt {s : State} {b : Byte} (h : 7 < b.toNat) (handler : RegIdx → State) :
    s.withReg b handler = s.raise (.registerIndexFault b) := by
  rw [State.withReg, regIndex_of_gt h]

/-- All the check of two indices can do, in the order of R186. -/
theorem State.withRegs_cases (s : State) (a b : Byte) (handler : RegIdx → RegIdx → State) :
    (∃ (ha : a.toNat < 8) (hb : b.toNat < 8), s.withRegs a b handler = handler ⟨a.toNat, ha⟩ ⟨b.toNat, hb⟩) ∨
    (7 < a.toNat ∧ s.withRegs a b handler = s.raise (.registerIndexFault a)) ∨
    (a.toNat < 8 ∧ 7 < b.toNat ∧ s.withRegs a b handler = s.raise (.registerIndexFault b)) := by
  unfold State.withRegs
  rcases s.withReg_cases a fun i => s.withReg b fun j => handler i j with ⟨ha, e⟩ | ⟨ha, e⟩
  · rw [e]
    rcases s.withReg_cases b fun j => handler ⟨a.toNat, ha⟩ j with ⟨hb, e'⟩ | ⟨hb, e'⟩
    · exact .inl ⟨ha, hb, e'⟩
    · exact .inr (.inr ⟨ha, hb, e'⟩)
  · exact .inr (.inl ⟨ha, e⟩)

/-- What fault entry writes, seen from outside (R187), for every fault whose value fits the register that reports it. -/
theorem State.raise_entry (s : State) (f : CoreFault) :
    FaultEntry s (s.raise f) f.code.toNat f.info.toNat :=
  ⟨rfl, rfl, rfl, rfl, rfl, fun _ => rfl, fun _ => rfl, rfl, rfl⟩

@[simp] theorem info_unknownOpcode (b : Byte) : (CoreFault.unknownOpcode b).info.toNat = b.toNat := by
  simp only [CoreFault.info, BitVec.toNat_setWidth]; omega

@[simp] theorem info_registerIndexFault (b : Byte) : (CoreFault.registerIndexFault b).info.toNat = b.toNat := by
  simp only [CoreFault.info, BitVec.toNat_setWidth]; omega

theorem info_memoryFault {a : Nat} (h : a < 512) : (CoreFault.memoryFault a).info.toNat = a := by
  simp only [CoreFault.info, BitVec.toNat_ofNat]; omega

/-- An advance from where an instruction can execute does not wrap (R67, R125). -/
theorem State.advance_pc_toNat {s : State} {len : Nat} (h : s.pc.toNat + len < 512) :
    (s.advance len).pc.toNat = s.pc.toNat + len := by
  simp only [State.advance_pc, BitVec.toNat_add, BitVec.toNat_ofNat]; omega

/-- All a memory read can do (R61). -/
theorem State.memRead_cases (s : State) (a : Nat) :
    (a < 256 ∧ s.memRead a = .ok (s.mem.read a)) ∨ (255 < a ∧ s.memRead a = .error (.memoryFault a)) := by
  unfold State.memRead
  by_cases h : a < 256
  · exact .inl ⟨h, if_pos h⟩
  · exact .inr ⟨by omega, if_neg h⟩

/-- The one out-of-range address a fetch at `pc` meets first (R68, R182). -/
def State.fetchFaultAddr (s : State) : Nat := max 256 s.pc.toNat

/-- All a fetch can do (R121, R122): three bytes when `pc ≤ 253`, else a MemoryFault whatever memory holds. -/
theorem State.fetch_cases (s : State) :
    (s.pc.toNat ≤ 253 ∧ s.fetch = .ok (s.byteAt 0, s.byteAt 1, s.byteAt 2)) ∨
    (254 ≤ s.pc.toNat ∧ s.fetch = .error (.memoryFault s.fetchFaultAddr)) := by
  unfold State.fetch State.fetchFaultAddr State.byteAt
  rcases s.memRead_cases s.pc.toNat with ⟨h0, e0⟩ | ⟨h0, e0⟩ <;>
  rcases s.memRead_cases (s.pc.toNat + 1) with ⟨h1, e1⟩ | ⟨h1, e1⟩ <;>
  rcases s.memRead_cases (s.pc.toNat + 2) with ⟨h2, e2⟩ | ⟨h2, e2⟩ <;>
  first
    | omega
    | exact .inl ⟨by omega, by simp [e0, e1, e2]⟩
    | (refine .inr ⟨by omega, ?_⟩; simp only [e0, e1, e2]; congr 2; omega)

/-- All a fetch and resolve can do (R123, R186). -/
theorem State.fetchInstr_cases (s : State) :
    (∃ o, s.pc.toNat ≤ 253 ∧ dispatch (s.byteAt 0) = some o ∧
      s.fetchInstr = .ok (o.instr (s.byteAt 1) (s.byteAt 2))) ∨
    (s.pc.toNat ≤ 253 ∧ dispatch (s.byteAt 0) = none ∧ s.fetchInstr = .error (.unknownOpcode (s.byteAt 0))) ∨
    (254 ≤ s.pc.toNat ∧ s.fetchInstr = .error (.memoryFault s.fetchFaultAddr)) := by
  unfold State.fetchInstr
  rcases s.fetch_cases with ⟨h, e⟩ | ⟨h, e⟩
  · cases hd : dispatch (s.byteAt 0) with
    | none => exact .inr (.inl ⟨h, rfl, by simp [e, decode_none _ _ hd]⟩)
    | some o => exact .inl ⟨o, h, rfl, by simp [e, decode_some hd]⟩
  · exact .inr (.inr ⟨h, by simp [e]⟩)

/-- What the ALU's write-back does to every register and to `FL` (R45, R150). -/
theorem State.aluWrite_result (s : State) (d : RegIdx) (v : Byte) : s.aluWrite d (.result v) = s.writeReg d v := rfl

theorem State.aluWrite_flags (s : State) (d : RegIdx) (f : BitVec 3) :
    s.aluWrite d (.flags f) = s.writeFlags (f.setWidth 8) := rfl

/-- All an ALU instruction's handler can do. -/
theorem State.aluHandler_cases (s : State) (op : AluOp) (a b : Byte) (len : Nat) :
    (∃ (ha : a.toNat < 8) (hb : b.toNat < 8), s.aluHandler op a b len =
      (s.aluWrite ⟨a.toNat, ha⟩ (alu op (s.readReg ⟨a.toNat, ha⟩) (s.readReg ⟨b.toNat, hb⟩))).advance len) ∨
    (7 < a.toNat ∧ s.aluHandler op a b len = s.raise (.registerIndexFault a)) ∨
    (a.toNat < 8 ∧ 7 < b.toNat ∧ s.aluHandler op a b len = s.raise (.registerIndexFault b)) :=
  s.withRegs_cases a b _

/-- The three outcomes of a comparison, widened to `FL` (R31, R153). -/
theorem aluCmp_cases (va vb : Byte) :
    (va.toNat = vb.toNat ∧ (aluCmp va vb).setWidth 8 = 1#8) ∨
    (va.toNat > vb.toNat ∧ (aluCmp va vb).setWidth 8 = 2#8) ∨
    (va.toNat < vb.toNat ∧ (aluCmp va vb).setWidth 8 = 4#8) := by
  unfold aluCmp
  by_cases h1 : va.toNat = vb.toNat
  · exact .inl ⟨h1, by rw [if_pos h1]; rfl⟩
  · by_cases h2 : va.toNat > vb.toNat
    · exact .inr (.inl ⟨h2, by rw [if_neg h1, if_pos h2]; rfl⟩)
    · exact .inr (.inr ⟨by omega, by rw [if_neg h1, if_neg h2]; rfl⟩)

end Sys2Proof.Machine
end

