-- ==== Sys2Proof/Laws/PerInstr.lean ====
section
/-! SUPPORT. Statements made per instruction. -/

namespace Sys2Proof.Laws

/-- The encoding of an instruction has as many bytes as its opcode declares: one for the opcode and one for each operand
of its format (R90, R91, R93). -/
def EncodedLength.Statement (i : Instr) : Prop :=
  (encode i).length = i.length ∧ i.length = 1 + i.opcode.format.operandCount

theorem EncodedLength.ldi (a imm : Byte) : EncodedLength.Statement (.ldi a imm) := ⟨rfl, rfl⟩

theorem EncodedLength.prn (a : Byte) : EncodedLength.Statement (.prn a) := ⟨rfl, rfl⟩

theorem EncodedLength.hlt : EncodedLength.Statement .hlt := ⟨rfl, rfl⟩

theorem EncodedLength.mul (a b : Byte) : EncodedLength.Statement (.mul a b) := ⟨rfl, rfl⟩

theorem EncodedLength.cmp (a b : Byte) : EncodedLength.Statement (.cmp a b) := ⟨rfl, rfl⟩

end Sys2Proof.Laws
end

