-- ==== Sys2Proof/Laws/Requests.lean ====
section
/-! SUPPORT. One lemma per host request that says all it can do, and what placing an instruction is. -/

namespace Sys2Proof.Machine

/-- All a Load can do (R75, R224). -/
theorem State.hostLoad_cases (s : State) (bytes : List Byte) :
    (s.runState = .stopped ∧ bytes.length ≤ 256 ∧
      s.hostLoad bytes = (.accepted, { s with mem := s.mem.load 0 bytes })) ∨
    (s.runState = .stopped ∧ 256 < bytes.length ∧ s.hostLoad bytes = (.loadOverflow, s)) ∨
    (s.runState ≠ .stopped ∧ s.hostLoad bytes = (.refused, s)) := by
  unfold State.hostLoad
  split
  · next h =>
    split
    · next hn => exact .inr (.inl ⟨h, hn, rfl⟩)
    · next hn => exact .inl ⟨h, Nat.le_of_not_lt hn, rfl⟩
  · next h => exact .inr (.inr ⟨by simp [h], rfl⟩)
  · next h => exact .inr (.inr ⟨by simp [h], rfl⟩)

/-- All a Run can do (R225). -/
theorem State.hostRun_cases (s : State) :
    (s.runState = .stopped ∧ s.hostRun = (.accepted, s.setRunState .running)) ∨
    (s.runState ≠ .stopped ∧ s.hostRun = (.ignored, s)) := by
  unfold State.hostRun
  split
  · next h => exact .inl ⟨h, rfl⟩
  · next h => exact .inr ⟨by simp [h], rfl⟩
  · next h => exact .inr ⟨by simp [h], rfl⟩

/-- From reset, placing an instruction for the next step is the host's Load of its bytes followed by Run (log entry 4). -/
theorem withFetchWord_reset_is_load_run (nbits w : Nat) :
    State.reset.withFetchWord nbits w = (State.reset.hostLoad (tableBytes nbits w)).2.hostRun.2 := rfl

end Sys2Proof.Machine
end

