-- ==== Sys2Proof/Laws/Step.lean ====
section
/-! SUPPORT. Inversion of `exec` and of `step`: all either can do. Every proof about a step goes through these. -/

namespace Sys2Proof.Machine

/-- What an instruction does when it completes, before the advance. -/
inductive Effect (s : State) : Instr → State → Prop where
  | ldi {a imm : Byte} (ha : a.toNat < 8) : Effect s (.ldi a imm) (s.writeReg ⟨a.toNat, ha⟩ imm)
  | prn {a : Byte} (ha : a.toNat < 8) : Effect s (.prn a) (s.emit (s.readReg ⟨a.toNat, ha⟩))
  | hlt : Effect s .hlt (s.setRunState .stopped)
  | mul {a b : Byte} (ha : a.toNat < 8) (hb : b.toNat < 8) :
      Effect s (.mul a b) (s.writeReg ⟨a.toNat, ha⟩ (aluMul (s.readReg ⟨a.toNat, ha⟩) (s.readReg ⟨b.toNat, hb⟩)))
  | cmp {a b : Byte} (ha : a.toNat < 8) (hb : b.toNat < 8) :
      Effect s (.cmp a b)
        (s.writeFlags ((aluCmp (s.readReg ⟨a.toNat, ha⟩) (s.readReg ⟨b.toNat, hb⟩)).setWidth 8))

/-- The first register index of an instruction that is above 7, in the order they are checked (R186). -/
def firstBadIndex (i : Instr) : Option Byte :=
  i.regIndices.find? fun r => decide (7 < r.toNat)

theorem firstBadIndex_mem {i : Instr} {b : Byte} (h : firstBadIndex i = some b) : b ∈ i.regIndices ∧ 7 < b.toNat :=
  ⟨List.mem_of_find?_eq_some h, by simpa using List.find?_some h⟩

/-- All `exec` can do: complete with the instruction's effect and the advance, or raise RegisterIndexFault on the
first of its register indices that is above 7. -/
theorem exec_cases (i : Instr) (s : State) :
    (∃ t, Effect s i t ∧ exec i s = .next (t.advance i.length)) ∨
    (∃ b, firstBadIndex i = some b ∧ exec i s = .next (s.raise (.registerIndexFault b))) := by
  cases i with
  | ldi a imm =>
    rcases s.withReg_cases a fun i => (s.writeReg i imm).advance Opcode.ldi.length with ⟨h, e⟩ | ⟨h, e⟩
    · exact .inl ⟨_, .ldi h, congrArg _ e⟩
    · exact .inr ⟨a, by simp [firstBadIndex, Instr.regIndices, h], congrArg _ e⟩
  | prn a =>
    rcases s.withReg_cases a fun i => (s.emit (s.readReg i)).advance Opcode.prn.length with ⟨h, e⟩ | ⟨h, e⟩
    · exact .inl ⟨_, .prn h, congrArg _ e⟩
    · exact .inr ⟨a, by simp [firstBadIndex, Instr.regIndices, h], congrArg _ e⟩
  | hlt => exact .inl ⟨_, .hlt, rfl⟩
  | mul a b =>
    rcases s.aluHandler_cases .mul a b Opcode.mul.length with ⟨ha, hb, e⟩ | ⟨h, e⟩ | ⟨h', h, e⟩
    · exact .inl ⟨_, .mul ha hb, congrArg _ e⟩
    · exact .inr ⟨a, by simp [firstBadIndex, Instr.regIndices, h], congrArg _ e⟩
    · exact .inr ⟨b, by simp [firstBadIndex, Instr.regIndices, h, show ¬ 7 < a.toNat by omega], congrArg _ e⟩
  | cmp a b =>
    rcases s.aluHandler_cases .cmp a b Opcode.cmp.length with ⟨ha, hb, e⟩ | ⟨h, e⟩ | ⟨h', h, e⟩
    · exact .inl ⟨_, .cmp ha hb, congrArg _ e⟩
    · exact .inr ⟨a, by simp [firstBadIndex, Instr.regIndices, h], congrArg _ e⟩
    · exact .inr ⟨b, by simp [firstBadIndex, Instr.regIndices, h, show ¬ 7 < a.toNat by omega], congrArg _ e⟩

/-- Outside Running a step is idle. -/
theorem step_idle {s : State} (h : s.runState ≠ .running) : step s = .next s := by
  unfold step
  split
  · next e => exact absurd e h
  · rfl
  · rfl

/-- While Running, a step that fetches an instruction executes it. -/
theorem step_of_instr {s : State} {i : Instr} (h : s.runState = .running) (e : s.fetchInstr = .ok i) :
    step s = exec i s := by
  simp only [step, h, e]

/-- While Running, a step that meets a fault on the way takes it. -/
theorem step_of_fault {s : State} {f : CoreFault} (h : s.runState = .running) (e : s.fetchInstr = .error f) :
    step s = .next (s.raise f) := by
  simp only [step, h, e]

/-- All a step can do. -/
theorem step_cases {s t : State} (h : step s = .next t) :
    (s.runState ≠ .running ∧ t = s) ∨
    (s.runState = .running ∧ ∃ f, t = s.raise f ∧
      ((254 ≤ s.pc.toNat ∧ f = .memoryFault s.fetchFaultAddr) ∨
       (s.pc.toNat ≤ 253 ∧ dispatch (s.byteAt 0) = none ∧ f = .unknownOpcode (s.byteAt 0)) ∨
       (∃ o b, s.pc.toNat ≤ 253 ∧ dispatch (s.byteAt 0) = some o ∧
          firstBadIndex (o.instr (s.byteAt 1) (s.byteAt 2)) = some b ∧ f = .registerIndexFault b))) ∨
    (s.runState = .running ∧ s.pc.toNat ≤ 253 ∧ ∃ o u, dispatch (s.byteAt 0) = some o ∧
      Effect s (o.instr (s.byteAt 1) (s.byteAt 2)) u ∧ t = u.advance o.length) := by
  by_cases hr : s.runState = .running
  · rcases s.fetchInstr_cases with ⟨o, hp, hd, e⟩ | ⟨hp, hd, e⟩ | ⟨hp, e⟩
    · rw [step_of_instr hr e] at h
      rcases exec_cases (o.instr (s.byteAt 1) (s.byteAt 2)) s with ⟨u, hu, e'⟩ | ⟨b, hb, e'⟩
      · refine .inr (.inr ⟨hr, hp, o, u, hd, hu, ?_⟩)
        rw [e', Host.Outcome.next.injEq] at h
        rw [← h, Instr.length, Opcode.instr_opcode]
      · rw [e', Host.Outcome.next.injEq] at h
        exact .inr (.inl ⟨hr, _, h.symm, .inr (.inr ⟨o, b, hp, hd, hb, rfl⟩)⟩)
    · rw [step_of_fault hr e, Host.Outcome.next.injEq] at h
      exact .inr (.inl ⟨hr, _, h.symm, .inr (.inl ⟨hp, hd, rfl⟩)⟩)
    · rw [step_of_fault hr e, Host.Outcome.next.injEq] at h
      exact .inr (.inl ⟨hr, _, h.symm, .inl ⟨hp, rfl⟩⟩)
  · rw [step_idle hr, Host.Outcome.next.injEq] at h
    exact .inl ⟨hr, h.symm⟩

/-- A step always answers a next state. -/
theorem step_total (s : State) : ∃ t, step s = .next t := by
  by_cases hr : s.runState = .running
  · cases e : s.fetchInstr with
    | error f => exact ⟨_, step_of_fault hr e⟩
    | ok i =>
      rw [step_of_instr hr e]
      rcases exec_cases i s with ⟨u, _, e⟩ | ⟨b, _, e⟩ <;> exact ⟨_, e⟩
  · exact ⟨s, step_idle hr⟩

/-- A fetch depends on `pc` and memory alone (R65, R120). -/
theorem State.fetchInstr_congr {s s' : State} (hp : s'.pc = s.pc) (hm : s'.mem = s.mem) :
    s'.fetchInstr = s.fetchInstr := by
  unfold State.fetchInstr State.fetch State.memRead
  rw [hp, hm]

/-- One more step of a run is a step and then the run. -/
theorem run_succ {s u : State} (h : step s = .next u) (k : Nat) :
    Host.Core.run core (k + 1) s = Host.Core.run core k u := by
  simp only [Host.Core.run, core]
  rw [h]

end Sys2Proof.Machine
end

