-- ==== Sys2Proof/Tests/Slice0.lean ====
section
/-! SUPPORT. Tests of the model: encodings written out from the opcode map, the vectors of 95_test_vectors.md, the
well-formedness smoke tests, and a witness for the hypotheses of every statement that has any. -/

namespace Sys2Proof.Tests

open Sys2Proof.Machine

/-- A Running core, otherwise at reset, with these bytes in memory from `p` on and `pc` there. -/
def runningAt (p : Nat) (bytes : List Byte) : State :=
  { State.reset with pc := BitVec.ofNat 9 p, mem := Memory.load [] p bytes, runState := .running }

/-- The same with some registers written. -/
def withRegs (s : State) (vs : List (RegIdx × Byte)) : State :=
  vs.foldl (fun s v => s.writeReg v.1 v.2) s

/-- An image of `n` HLT bytes. -/
def image (n : Nat) : List Byte := List.replicate n 1

theorem image_length (n : Nat) : (image n).length = n := List.length_replicate

/-- What a step shows of the fault record. -/
def record (o : StepOutcome) : Option (RunState × BitVec 3 × Addr × Addr) :=
  (nextState? o).map fun t => (t.runState, t.faultKind, t.faultPc, t.faultInfo)

/-! ### Well-formedness: an ill-formed term for each check -/

theorem test_wf_accepts : (Instr.ldi 7 200).wellFormed = true ∧ (Instr.mul 0 7).wellFormed = true := by decide
theorem test_wf_refuses_ldi_index : (Instr.ldi 8 0).wellFormed = false := by decide
theorem test_wf_refuses_prn_index : (Instr.prn 8).wellFormed = false := by decide
theorem test_wf_refuses_mul_first_index : (Instr.mul 8 0).wellFormed = false := by decide
theorem test_wf_refuses_mul_second_index : (Instr.mul 0 8).wellFormed = false := by decide
theorem test_wf_refuses_cmp_first_index : (Instr.cmp 8 0).wellFormed = false := by decide
theorem test_wf_refuses_cmp_second_index : (Instr.cmp 0 255).wellFormed = false := by decide

/-! ### Decoding: words written bit by bit from R93 and R91 -/

theorem test_decode_ldi : decodeBytes [0b10000010#8, 0b00000011#8, 0b11111111#8] = some (.ldi 3 255) := by decide
theorem test_decode_prn : decodeBytes [0b01000111#8, 0b00000111#8, 0b00000001#8] = some (.prn 7) := by decide
theorem test_decode_hlt : decodeBytes [0b00000001#8, 0b11111111#8, 0b11111111#8] = some .hlt := by decide
theorem test_decode_mul : decodeBytes [0b10100010#8, 0b00000001#8, 0b00000000#8] = some (.mul 1 0) := by decide
theorem test_decode_cmp : decodeBytes [0b10100111#8, 0b00000000#8, 0b00000001#8] = some (.cmp 0 1) := by decide
/-- 95_test_vectors.md section 2.7: one bit away from each opcode, and the bytes a reader might expect to mean something. -/
theorem test_decode_rejects :
    [0x83#8, 0x46#8, 0x81#8, 0xA3#8, 0xA6#8, 0x00#8, 0xA0#8, 0xFF#8, 0x02#8].all (fun b => (dispatch b).isNone) = true := by
  decide
theorem test_decodeTableWord_ldi : decodeTableWord 24 0x080082 = some (.ldi 0 8) := by decide
theorem test_decodeTableWord_short : decodeTableWord 8 0xFFFFA7 = some (.cmp 0 0) := by decide
theorem test_encode_mul : encode (.mul 0 1) = [0xA2, 0x00, 0x01] := by decide
/-- The assembly of the source's example, R100. -/
theorem test_asm : (Instr.ldi 0 8).asm = "LDI R0,8" ∧ (Instr.mul 0 1).asm = "MUL R0,R1" := by decide

/-! ### One step of each instruction (95_test_vectors.md section 2) -/

/-- Section 2.1: `82 07 00` overwrites the Stack Pointer's reset value. -/
theorem test_ldi_sp : (nextState? (step (runningAt 0 [0x82, 0x07, 0x00]))).map (fun t => (t.readReg 7, t.pc)) = some (0, 3) := by
  decide
/-- Section 2.1: `82 FF 01`. -/
theorem test_ldi_bad_index : record (step (runningAt 0 [0x82, 0xFF, 0x01])) = some (.faulted, 4, 0, 255) := by decide
/-- Section 2.2: `47 07` from reset. -/
theorem test_prn_sp : (nextState? (step (runningAt 0 [0x47, 0x07]))).map (fun t => (t.out, t.pc)) = some ([244], 2) := by decide
/-- Section 2.2: `47 01 FF` with x[1] = 7; `operand_b` is not checked. -/
theorem test_prn_ignores_operand_b :
    (nextState? (step (withRegs (runningAt 0 [0x47, 0x01, 0xFF]) [(1, 7)]))).map (fun t => (t.out, t.runState)) =
      some ([7], .running) := by decide
/-- Section 2.5: HLT at 253, the last address at which it works. -/
theorem test_hlt_last_address :
    (nextState? (step (runningAt 253 [0x01]))).map (fun t => (t.runState, t.pc)) = some (.stopped, 254) := by decide
/-- Section 2.6: HLT at 254 faults. -/
theorem test_hlt_above_last_address : record (step (runningAt 254 [0x01])) = some (.faulted, 3, 254, 256) := by decide
/-- Section 2.3: 200 * 3 with `FL` = 4. -/
theorem test_mul_wraps :
    (nextState? (step (withRegs ((runningAt 0 [0xA2, 0x00, 0x01]).writeFlags 4) [(0, 200), (1, 3)]))).map
      (fun t => (t.readReg 0, t.readReg 1, t.fl, t.pc)) = some (88, 3, 4, 3) := by decide
/-- Section 2.3: `A2 09 C8`, both indices bad: the first is reported. -/
theorem test_mul_first_bad_index : record (step (runningAt 0 [0xA2, 0x09, 0xC8])) = some (.faulted, 4, 0, 9) := by decide
/-- Section 2.4: `A7 00 07` from reset, 0 < 244. -/
theorem test_cmp_less :
    (nextState? (step ((runningAt 0 [0xA7, 0x00, 0x07]).writeFlags 1))).map (fun t => (t.fl, t.pc)) = some (4, 3) := by decide
/-- Section 2.4: 128 against 127 is greater, unsigned. -/
theorem test_cmp_unsigned :
    (nextState? (step (withRegs (runningAt 0 [0xA7, 0x00, 0x01]) [(0, 128), (1, 127)]))).map (fun t => t.fl) = some 2 := by
  decide

/-! ### The top of memory, unknown opcodes (sections 2.6, 2.7) -/

theorem test_operand_a_above_memory : record (step (runningAt 255 [0xFF])) = some (.faulted, 3, 255, 256) := by decide
theorem test_opcode_above_memory : record (step (runningAt 256 [])) = some (.faulted, 3, 256, 256) := by decide
theorem test_ldi_at_253 :
    (nextState? (step (runningAt 253 [0x82, 0x00, 0x2A]))).map (fun t => (t.readReg 0, t.pc, t.runState)) =
      some (42, 256, .running) := by decide
theorem test_zero_is_no_instruction : record (step (runningAt 0 [0x00])) = some (.faulted, 1, 0, 0) := by decide
theorem test_no_add_instruction : record (step (runningAt 0 [0xA0, 0x09, 0x09])) = some (.faulted, 1, 0, 160) := by decide

/-! ### The host (section 2.9) -/

theorem test_run_without_load : record (step State.reset.hostRun.2) = some (.faulted, 1, 0, 0) := by decide
theorem test_load_256_accepted : (State.reset.hostLoad (image 256)).1 = .accepted := by
  rcases State.hostLoad_cases State.reset (image 256) with ⟨_, _, e⟩ | ⟨_, h, _⟩ | ⟨h, _⟩
  · rw [e]
  · rw [image_length] at h; omega
  · exact absurd rfl h
theorem test_load_257_refused : State.reset.hostLoad (image 257) = (.loadOverflow, State.reset) := by
  rcases State.hostLoad_cases State.reset (image 257) with ⟨_, h, _⟩ | ⟨_, _, e⟩ | ⟨h, _⟩
  · rw [image_length] at h; omega
  · exact e
  · exact absurd rfl h
theorem test_second_load_keeps_tail :
    ((State.reset.hostLoad [0x82, 0x00, 0x05, 0x01]).2.hostLoad [0x47]).2.mem =
      [(0, 0x47), (2, 0x05), (3, 0x01)] := by decide
theorem test_placed_word_runs :
    (nextState? (step (State.reset.withFetchWord 24 0x080082))).map (fun t => (t.readReg 0, t.pc)) = some (8, 3) := by decide
theorem test_status_and_exit :
    (State.reset.raise (.unknownOpcode 0)).exitStatus = some 1 ∧ State.reset.exitStatus = some 0 ∧
    (State.reset.raise (.unknownOpcode 5)).status.faultInfo = 5 := by decide
theorem test_render : renderOut [0, 72, 255] = "0\n72\n255\n" := by decide

/-! ### Memory keeps its canonical form -/

theorem test_write_of_zero_removes : Memory.write [(3, 9)] 3 0 = [] := by decide
theorem test_write_keeps_order : Memory.write [(3, 9), (7, 1)] 5 2 = [(3, 9), (5, 2), (7, 1)] := by decide

/-! ### Witnesses: for every statement with hypotheses, operands and a state that meet all of them, one for each clause -/

theorem witness_DecodeAndEncodeAgree : decodeBytes ([0x47, 0x00, 0x01] : List Byte) = some (.prn 0) := by decide

theorem witness_LengthIsFixedByTheOpcodeByte : decode 0x01 0xFF 0xFF = .ok .hlt ∧ decode 0x82 0 0 = .ok (.ldi 0 0) :=
  ⟨rfl, rfl⟩

theorem witness_DecoderRejectsExactlyTheOtherOpcodes :
    decode 0xA0 0 1 = .error (.unknownOpcode 0xA0) ∧ ∃ i, decode 0xA7 8 9 = .ok i := ⟨rfl, _, rfl⟩

/-- LDI writes a register that differs, and MUL does. -/
theorem witness_AluAddIsTheSumModulo256 :
    (∃ t, exec (.ldi 7 0) State.reset = .next t ∧ t.readReg 7 ≠ State.reset.readReg 7) ∧
    (∃ t, exec (.mul 7 0) State.reset = .next t ∧ t.readReg 7 ≠ State.reset.readReg 7) :=
  ⟨⟨_, rfl, by decide⟩, ⟨_, rfl, by decide⟩⟩

theorem witness_ArithmeticWrapsAndOverflowIsNoError :
    (0x02#8).toNat = (2 : RegIdx).val ∧ (0x07#8).toNat = (7 : RegIdx).val := by decide

theorem witness_LdiSetsTheRegister : (0x07#8).toNat = (7 : RegIdx).val ∧ (runningAt 253 []).pc.toNat ≤ 253 := by decide

theorem witness_PrnEmitsTheRegister : (0x00#8).toNat = (0 : RegIdx).val ∧ (runningAt 253 []).pc.toNat ≤ 253 := by decide

theorem witness_HltStopsTheCore : (runningAt 253 [0x01]).pc.toNat ≤ 253 := by decide

theorem witness_MulKeepsTheLowByte :
    (0x03#8).toNat = (3 : RegIdx).val ∧ (0x07#8).toNat = (7 : RegIdx).val ∧ (runningAt 253 []).pc.toNat ≤ 253 := by decide

theorem witness_CmpRecordsTheOrder :
    (0x04#8).toNat = (4 : RegIdx).val ∧ (0x07#8).toNat = (7 : RegIdx).val ∧ (runningAt 253 []).pc.toNat ≤ 253 := by decide

theorem witness_BadIndexOfLdiAndPrnFaults : 7 < (0x08#8).toNat ∧ 7 < (0xFF#8).toNat := by decide

/-- The first index bad, the second alone, and both. -/
theorem witness_BadIndexOfMulAndCmpFaults :
    (7 < (0x08#8).toNat ∨ 7 < (0x07#8).toNat) ∧ (7 < (0x07#8).toNat ∨ 7 < (0x08#8).toNat) ∧
    (7 < (0x08#8).toNat ∨ 7 < (0xFF#8).toNat) := by decide

/-- An ill-formed instruction and a well-formed one. -/
theorem witness_InstructionsFaultExactlyWhenIllFormed :
    State.reset.runState ≠ .faulted ∧ (∃ t, exec (.cmp 0 8) State.reset = .next t) ∧
    ∃ t, exec (.cmp 0 7) State.reset = .next t := ⟨by decide, ⟨_, rfl⟩, ⟨_, rfl⟩⟩

theorem witness_FrameOfLdiAndMul :
    (∃ t, exec (.ldi 7 1) State.reset = .next t) ∧ (∃ t, exec (.mul 0 7) State.reset = .next t) ∧
    (Instr.ldi 7 1).wellFormed = true ∧ (Instr.mul 0 7).wellFormed = true ∧ (6 : RegIdx).val ≠ (0x07#8).toNat :=
  ⟨⟨_, rfl⟩, ⟨_, rfl⟩, by decide, by decide, by decide⟩

theorem witness_FrameOfPrnCmpAndHlt :
    (∃ t, exec (.prn 7) State.reset = .next t) ∧ (∃ t, exec (.cmp 0 7) State.reset = .next t) ∧
    (∃ t, exec .hlt State.reset = .next t) ∧ (Instr.prn 7).wellFormed = true ∧ (Instr.cmp 0 7).wellFormed = true ∧
    Instr.hlt.wellFormed = true := ⟨⟨_, rfl⟩, ⟨_, rfl⟩, ⟨_, rfl⟩, by decide, by decide, by decide⟩

/-- An instruction that does not name `x[7]`, HLT that names none, and operands that name the first and the last register. -/
theorem witness_StackPointerIsAnOrdinaryRegister :
    (∀ b ∈ (Instr.mul 0 6).regIndices, b.toNat ≠ (7 : RegIdx).val) ∧ (∃ t, exec (.mul 0 6) State.reset = .next t) ∧
    (∀ b ∈ Instr.hlt.regIndices, b.toNat ≠ (7 : RegIdx).val) ∧ (∃ t, exec .hlt State.reset = .next t) ∧
    (0x00#8).toNat = (0 : RegIdx).val ∧ (0x07#8).toNat = (7 : RegIdx).val :=
  ⟨by decide, ⟨_, rfl⟩, by decide, ⟨_, rfl⟩, by decide, by decide⟩

theorem witness_StepRunsTheDecodedInstruction :
    (runningAt 253 [0xA2, 0, 7]).runState = .running ∧ (runningAt 253 [0xA2, 0, 7]).pc.toNat ≤ 253 ∧
    decode ((runningAt 253 [0xA2, 0, 7]).byteAt 0) ((runningAt 253 [0xA2, 0, 7]).byteAt 1)
      ((runningAt 253 [0xA2, 0, 7]).byteAt 2) = .ok (.mul 0 7) := ⟨rfl, by decide, rfl⟩

theorem witness_StepIsIdleOutsideRunning :
    State.reset.runState ≠ .running ∧ (State.reset.raise (.unknownOpcode 0)).runState ≠ .running := by decide

/-- The first address above, the last in memory, the two ends of the range above it. -/
theorem witness_FetchAboveMemoryFaults :
    ([254, 255, 256, 511].all fun p =>
      decide ((runningAt p []).runState = .running) && decide (254 ≤ (runningAt p []).pc.toNat)) = true := by decide

theorem witness_UnknownOpcodeFaults :
    (runningAt 253 []).runState = .running ∧ (runningAt 253 []).pc.toNat ≤ 253 ∧
    (runningAt 253 []).byteAt 0 ≠ 0x82 ∧ (runningAt 253 []).byteAt 0 ≠ 0x47 ∧ (runningAt 253 []).byteAt 0 ≠ 0x01 ∧
    (runningAt 253 []).byteAt 0 ≠ 0xA2 ∧ (runningAt 253 []).byteAt 0 ≠ 0xA7 := by decide

/-- A faulting step for each clause: `pc` 254, an unknown opcode at 253, a first and a second bad index at 253. -/
theorem witness_FaultPriorityIsTheOrderOfTheStep :
    ∀ s ∈ [runningAt 254 [0x00], runningAt 253 [0x00, 8, 8], runningAt 253 [0xA2, 8, 9], runningAt 253 [0xA2, 7, 8]],
      s.runState = .running ∧ ∃ t, step s = .next t ∧ t.runState = .faulted := by
  intro s hs
  simp only [List.mem_cons, List.not_mem_nil, or_false] at hs
  rcases hs with rfl | rfl | rfl | rfl <;> exact ⟨rfl, _, rfl, rfl⟩

/-- The same in one instance of the hypotheses of FaultsArePrecise. -/
theorem witness_FaultsArePrecise :
    ∃ t, (runningAt 0 [0x82, 8, 1]).runState = .running ∧ step (runningAt 0 [0x82, 8, 1]) = .next t ∧
      t.runState = .faulted := ⟨_, rfl, rfl, rfl⟩

/-- Ends Stopped, ends Faulted, stays Running. -/
theorem witness_RunStateTransitionsOfAStep :
    (∃ t, step (runningAt 253 [0x01]) = .next t ∧ t.runState = .stopped) ∧
    (∃ t, step (runningAt 254 [0x01]) = .next t ∧ t.runState = .faulted) ∧
    ∃ t, step (runningAt 253 [0x47, 7]) = .next t ∧ t.runState = .running := ⟨⟨_, rfl, rfl⟩, ⟨_, rfl, rfl⟩, ⟨_, rfl, rfl⟩⟩

/-- One step for each length and one that faults. -/
theorem witness_PcAdvancesByTheDeclaredLengthOnly :
    (∀ s ∈ [runningAt 253 [0x82, 0, 1], runningAt 253 [0x47, 0], runningAt 253 [0x01], runningAt 253 [0xA2, 0, 1],
        runningAt 253 [0xA7, 0, 1]],
      s.runState = .running ∧ ∃ t, step s = .next t ∧ t.runState ≠ .faulted) ∧
    ∃ t, step (runningAt 253 [0x00]) = .next t ∧ t.runState = .faulted := by
  refine ⟨fun s hs => ?_, _, rfl, rfl⟩
  simp only [List.mem_cons, List.not_mem_nil, or_false] at hs
  rcases hs with rfl | rfl | rfl | rfl | rfl <;> exact ⟨rfl, _, rfl, by decide⟩

theorem witness_PcNeverDecreasesAlongARun :
    ∃ t, Host.Core.run core 1 (runningAt 0 [0x47, 0]) = .next t := ⟨_, rfl⟩

theorem witness_FlagsAreWrittenOnlyByCmp :
    (∃ t, step (runningAt 253 [0xA7, 0, 7]) = .next t ∧ t.fl ≠ (runningAt 253 [0xA7, 0, 7]).fl) ∧
    (0x07#8).toNat = (7 : RegIdx).val ∧
    (∀ a b, Instr.hlt ≠ .cmp a b) ∧ ∃ t, exec .hlt State.reset = .next t :=
  ⟨⟨_, rfl, by decide⟩, by decide, by simp, _, rfl⟩

theorem witness_RegistersAreWrittenOnlyByLdiAndMul :
    (∃ t, step (runningAt 253 [0x82, 7, 0]) = .next t ∧ t.readReg 7 ≠ (runningAt 253 [0x82, 7, 0]).readReg 7) ∧
    ∃ t, step (runningAt 253 [0xA2, 7, 0]) = .next t ∧ t.readReg 7 ≠ (runningAt 253 [0xA2, 7, 0]).readReg 7 :=
  ⟨⟨_, rfl, by decide⟩, ⟨_, rfl, by decide⟩⟩

/-- A step that appends and one that does not; also a witness for NoStepReadsTheOutput. -/
theorem witness_OutputGrowsOnlyByPrn :
    (∃ t, step (runningAt 253 [0x47, 7]) = .next t ∧ t.out = [244]) ∧
    ∃ t, step (runningAt 253 [0x01]) = .next t ∧ t.out = [] := ⟨⟨_, rfl, by decide⟩, ⟨_, rfl, rfl⟩⟩

theorem witness_MemoryIsChangedByNoOpcode :
    (∃ t, step (runningAt 0 [0x01]) = .next t) ∧ State.reset.mem.wf = true ∧ State.reset.runState = .stopped ∧
    (image 256).length ≤ 256 ∧ 255 < (image 256).length :=
  ⟨⟨_, rfl⟩, rfl, rfl, by rw [image_length], by rw [image_length]; decide⟩

/-- A CMP that completes; a CMP with a bad index, one above memory, another instruction and an idle step. -/
theorem witness_NoStepReadsTheFlags :
    (∃ t, step (runningAt 253 [0xA7, 0, 7]) = .next t ∧ (runningAt 253 [0xA7, 0, 7]).runState = .running ∧
      (runningAt 253 [0xA7, 0, 7]).byteAt 0 = 0xA7 ∧ t.runState ≠ .faulted) ∧
    (∃ t, step (runningAt 253 [0xA7, 0, 8]) = .next t ∧ t.runState = .faulted) ∧
    (∃ t, step (runningAt 254 [0xA7]) = .next t ∧ t.runState = .faulted) ∧
    (∃ t, step (runningAt 253 [0x01]) = .next t ∧ (runningAt 253 [0x01]).byteAt 0 ≠ 0xA7) ∧
    ∃ t, step State.reset = .next t ∧ State.reset.runState ≠ .running :=
  ⟨⟨_, rfl, rfl, by decide, by decide⟩, ⟨_, rfl, rfl⟩, ⟨_, rfl, rfl⟩, ⟨_, rfl, by decide⟩, ⟨_, rfl, by decide⟩⟩

theorem witness_NoStepReadsTheOutput : ∃ t, step (runningAt 253 [0x47, 7]) = .next t := ⟨_, rfl⟩

/-- PRN with another byte after it. -/
theorem witness_UnusedOperandBytesHaveNoEffect :
    Memory.read [(0, 0x47), (1, 7), (2, 255)] (runningAt 0 [0x47, 7, 1]).pc.toNat = (runningAt 0 [0x47, 7, 1]).byteAt 0 ∧
    (∀ o, dispatch ((runningAt 0 [0x47, 7, 1]).byteAt 0) = some o → ∀ k, k < o.length →
      Memory.read [(0, 0x47), (1, 7), (2, 255)] ((runningAt 0 [0x47, 7, 1]).pc.toNat + k) =
        (runningAt 0 [0x47, 7, 1]).byteAt k) ∧
    ∃ t, step (runningAt 0 [0x47, 7, 1]) = .next t := by
  refine ⟨rfl, fun o ho k hk => ?_, _, rfl⟩
  have : o = .prn := by
    have h : dispatch ((runningAt 0 [0x47, 7, 1]).byteAt 0) = some .prn := rfl
    rw [h] at ho
    exact (Option.some.inj ho).symm
  subst this
  match k, hk with
  | 0, _ => rfl
  | 1, _ => rfl

theorem witness_UnsupportedOperationIsNeverRaised :
    State.reset.faultKind ≠ 2 ∧ ∃ t, step (runningAt 0 [0x00]) = .next t := ⟨by decide, _, rfl⟩

theorem witness_FaultedIsLeftOnlyByReset : (State.reset.raise (.memoryFault 256)).runState = .faulted := rfl

theorem witness_LdiIsSeenByTheNextPrn :
    (runningAt 250 [0x82, 7, 8, 0x47, 7]).runState = .running ∧ (runningAt 250 [0x82, 7, 8, 0x47, 7]).pc.toNat ≤ 250 ∧
    (0x07#8).toNat = (7 : RegIdx).val ∧
    (runningAt 250 [0x82, 7, 8, 0x47, 7]).byteAt 0 = 0x82 ∧ (runningAt 250 [0x82, 7, 8, 0x47, 7]).byteAt 1 = 7 ∧
    (runningAt 250 [0x82, 7, 8, 0x47, 7]).byteAt 2 = 8 ∧ (runningAt 250 [0x82, 7, 8, 0x47, 7]).byteAt 3 = 0x47 ∧
    (runningAt 250 [0x82, 7, 8, 0x47, 7]).byteAt 4 = 7 := by decide

/-- A Running state that meets the invariant; also a witness for EveryRunEndsWithin128Steps. -/
theorem witness_StepKeepsTheInvariant :
    (runningAt 253 [0x01]).Inv ∧ (runningAt 253 [0x01]).runState = .running ∧
    ∃ t, step (runningAt 253 [0x01]) = .next t :=
  ⟨⟨by decide, .inl rfl, by decide, fun _ => ⟨rfl, rfl, rfl⟩, fun h => by cases h⟩, rfl, _, rfl⟩

/-- A Faulted state that meets the invariant. -/
theorem witness_faulted_Inv : (State.reset.raise (.unknownOpcode 0)).Inv :=
  ⟨by decide, .inl rfl, by decide, fun h => absurd rfl h, fun _ => ⟨rfl, .inl (by decide)⟩⟩

theorem witness_RequestsKeepTheInvariant : State.reset.Inv :=
  ⟨rfl, .inl rfl, by decide, fun _ => ⟨rfl, rfl, rfl⟩, fun h => by cases h⟩

/-- A reachable state in each run state. -/
theorem witness_ReachableStatesMeetTheInvariant :
    Reachable State.reset ∧ Reachable (State.reset.request .run).2 ∧
    ∃ t, Reachable t ∧ t.runState = .faulted :=
  ⟨.reset, .host .run .reset, _, .core (.host .run .reset) rfl, rfl⟩

theorem witness_EveryRunEndsWithin128Steps : (runningAt 0 [0x47, 0]).runState = .running := rfl

theorem witness_CanonicalMemoriesThatReadAlikeAreEqual :
    Memory.wf [(0, 1), (255, 2)] = true ∧
    ∀ a : Nat, Memory.read [(0, 1), (255, 2)] a = Memory.read (Memory.load [(255, 2)] 0 [1]) a :=
  ⟨by decide, fun _ => rfl⟩

theorem witness_LoadWritesTheImageAndNothingElse :
    State.reset.mem.wf = true ∧ State.reset.runState = .stopped ∧ (image 256).length ≤ 256 ∧
    ([] : List Byte).length ≤ 256 := ⟨rfl, rfl, by rw [image_length], by decide⟩

/-- Over-long while Stopped; Running and Faulted. -/
theorem witness_RefusedLoadsChangeNothing :
    State.reset.runState = .stopped ∧ 256 < (image 257).length ∧
    (runningAt 0 []).runState ≠ .stopped ∧ (State.reset.raise (.unknownOpcode 0)).runState ≠ .stopped :=
  ⟨rfl, by rw [image_length]; decide, by decide, by decide⟩

theorem witness_RunChangesOnlyTheRunState :
    State.reset.runState = .stopped ∧ (runningAt 0 []).runState ≠ .stopped ∧
    (State.reset.raise (.unknownOpcode 0)).runState ≠ .stopped := by decide

theorem witness_RunAfterHltResumesAtTheNextByte :
    ∃ t, (runningAt 253 [0x01]).runState = .running ∧ (runningAt 253 [0x01]).pc.toNat ≤ 253 ∧
      (runningAt 253 [0x01]).byteAt 0 = 0x01 ∧ step (runningAt 253 [0x01]) = .next t := ⟨_, rfl, by decide, by decide, rfl⟩

/-- The shortest image and a full one. -/
theorem witness_FirstInstructionIsTheFirstOfTheImage :
    (encode .hlt ++ []).length ≤ 256 ∧ (encode (.ldi 0 8) ++ image 253).length ≤ 256 :=
  ⟨by decide, by rw [List.length_append, image_length]; decide⟩

/-- A short table word and a whole one, from reset and from an address where no instruction fits. -/
theorem witness_PlacedWordIsExecutedNext :
    State.reset.mem.wf = true ∧ (runningAt 255 [0x01]).mem.wf = true ∧ decodeTableWord 8 0x01 = some .hlt ∧
    decodeTableWord 24 0x0100A2 = some (.mul 0 1) := by decide

end Sys2Proof.Tests
end

section
/-! PROOF. What the effect of an instruction leaves unchanged: the frame of `Effect`, one lemma per piece of state. -/

namespace Sys2Proof.Machine

variable {s u : State} {i : Instr}

/-- No instruction writes memory (R38). -/
theorem Effect.mem_eq (h : Effect s i u) : u.mem = s.mem := by
  cases h <;> rfl

/-- `pc` moves by the advance alone (R125). -/
theorem Effect.pc_eq (h : Effect s i u) : u.pc = s.pc := by
  cases h <;> rfl

/-- An instruction that completes leaves the fault record (R187). -/
theorem Effect.sameFaultRecord (h : Effect s i u) : SameFaultRecord s u := by
  cases h <;> exact ⟨rfl, rfl, rfl⟩

/-- Only HLT writes the run state (R126, R170). -/
theorem Effect.runState_cases (h : Effect s i u) : u.runState = s.runState ∨ i = .hlt ∧ u.runState = .stopped := by
  cases h with
  | hlt => exact .inr ⟨rfl, rfl⟩
  | ldi | prn | mul | cmp => exact .inl rfl

/-- `FL` stays as it was or takes one of the three values of a comparison (R32, R33). -/
theorem Effect.fl_cases (h : Effect s i u) : u.fl = s.fl ∨ u.fl = 1 ∨ u.fl = 2 ∨ u.fl = 4 := by
  cases h with
  | @cmp a b ha hb =>
    rcases aluCmp_cases (s.readReg ⟨a.toNat, ha⟩) (s.readReg ⟨b.toNat, hb⟩) with ⟨-, e⟩ | ⟨-, e⟩ | ⟨-, e⟩
    · exact .inr (.inl e)
    · exact .inr (.inr (.inl e))
    · exact .inr (.inr (.inr e))
  | ldi | prn | hlt | mul => exact .inl rfl

end Sys2Proof.Machine
end

section
/-! PROOF. The invariant of the machine: it holds at reset, and every step and every host request keeps it. -/

namespace Sys2Proof.Machine

/-! ### What each move can do to the invariant -/

/-- Between states that are not Faulted and have one fault record, the invariant is about memory, `FL` and `pc` alone. -/
theorem State.Inv.of_sameFaultRecord {s t : State} (h : s.Inv) (hs : s.runState ≠ .faulted)
    (ht : t.runState ≠ .faulted) (hrec : SameFaultRecord s t) (hmem : t.mem.wf = true)
    (hfl : t.fl = 0 ∨ t.fl = 1 ∨ t.fl = 2 ∨ t.fl = 4) (hpc : t.pc.toNat ≤ 256) : t.Inv where
  mem := hmem
  fl := hfl
  pc := hpc
  clear _ := by
    obtain ⟨hkind, hfpc, hinfo⟩ := hrec
    rw [hkind, hfpc, hinfo]
    exact h.clear hs
  record hf := absurd hf ht

/-- Fault entry keeps the invariant when the record it writes is true (R187, R188). -/
theorem raise_keeps_inv {s : State} {f : CoreFault} (h : s.Inv) (hf : (s.raise f).faultRecordTrue) :
    (s.raise f).Inv where
  mem := h.mem
  fl := h.fl
  pc := h.pc
  clear hr := absurd rfl hr
  record _ := ⟨rfl, hf⟩

/-- An instruction that completes where it can execute keeps the invariant: three bytes on from 253 is 256 (R29). -/
theorem effect_advance_keeps_inv {s u : State} {i : Instr} (h : s.Inv) (hr : s.runState = .running)
    (hp : s.pc.toNat ≤ 253) (hu : Effect s i u) {len : Nat} (hlen : len ≤ 3) : (u.advance len).Inv := by
  have hpu : u.pc.toNat ≤ 253 := by rwa [hu.pc_eq]
  have hpc : (u.advance len).pc.toNat ≤ 256 := by
    rw [State.advance_pc_toNat (by omega)]
    omega
  have hmem : (u.advance len).mem.wf = true := by
    rw [State.advance_mem, hu.mem_eq]
    exact h.mem
  have hrun : (u.advance len).runState ≠ .faulted := by
    rcases hu.runState_cases with e | ⟨-, e⟩ <;> simp [e, hr]
  have hfl : u.fl = 0 ∨ u.fl = 1 ∨ u.fl = 2 ∨ u.fl = 4 := by
    rcases hu.fl_cases with e | e
    · rw [e]
      exact h.fl
    · exact .inr e
  exact h.of_sameFaultRecord (by simp [hr]) hrun hu.sameFaultRecord hmem hfl hpc

/-! ### What the fault record says is so -/

/-- An unresolved opcode byte is still at `pc` when the record names it (R181, R188). -/
theorem faultRecordTrue_unknownOpcode {s : State} (hp : s.pc.toNat ≤ 253) (hd : dispatch (s.byteAt 0) = none) :
    (s.raise (.unknownOpcode (s.byteAt 0))).faultRecordTrue :=
  .inl ⟨rfl, hp, info_unknownOpcode _, hd⟩

/-- Where `pc` is at most 256, the address a fetch at the top of memory reports is 256 (R68). -/
theorem faultRecordTrue_memoryFault {s : State} (hp : 254 ≤ s.pc.toNat) (hp' : s.pc.toNat ≤ 256) :
    (s.raise (.memoryFault s.fetchFaultAddr)).faultRecordTrue := by
  have haddr : s.fetchFaultAddr = 256 := Nat.max_eq_left hp'
  refine .inr (.inl ⟨rfl, hp, ?_⟩)
  rw [State.raise_faultInfo, haddr, info_memoryFault (by decide)]

/-- The register indices of a decoded instruction are among its two candidate operand bytes (R95, R96). -/
theorem mem_regIndices_instr {o : Opcode} {a b r : Byte} (h : r ∈ (o.instr a b).regIndices) : r = a ∨ r = b := by
  have hsub : (o.instr a b).regIndices ⊆ [a, b] := by
    cases o <;> simp [Opcode.instr, Instr.regIndices]
  simpa using hsub h

/-- The bad index reported is above 7 and is one of the two operand bytes at `pc` (R183). -/
theorem faultRecordTrue_registerIndexFault {s : State} {o : Opcode} {r : Byte} (hp : s.pc.toNat ≤ 253)
    (h : firstBadIndex (o.instr (s.byteAt 1) (s.byteAt 2)) = some r) :
    (s.raise (.registerIndexFault r)).faultRecordTrue := by
  obtain ⟨hmem, hbad⟩ := firstBadIndex_mem h
  have hinfo : (s.raise (.registerIndexFault r)).faultInfo.toNat = r.toNat := info_registerIndexFault r
  refine .inr (.inr ⟨rfl, hp, by omega, ?_⟩)
  rw [hinfo]
  exact (mem_regIndices_instr hmem).imp (congrArg _) (congrArg _)

/-! ### The invariant along an execution -/

/-- Every step keeps the invariant. -/
theorem step_keeps_inv {s t : State} (h : s.Inv) (e : step s = .next t) : t.Inv := by
  obtain ⟨-, rfl⟩ | ⟨-, f, rfl, hf⟩ | ⟨hr, hp, o, u, -, hu, rfl⟩ := step_cases e
  · exact h
  · refine raise_keeps_inv h ?_
    obtain ⟨hp, rfl⟩ | ⟨hp, hd, rfl⟩ | ⟨o, b, hp, -, hb, rfl⟩ := hf
    · exact faultRecordTrue_memoryFault hp h.pc
    · exact faultRecordTrue_unknownOpcode hp hd
    · exact faultRecordTrue_registerIndexFault hp hb
  · have hlen : o.length ≤ 3 := by cases o <;> decide
    exact effect_advance_keeps_inv h hr hp hu hlen

/-- A Reset leads to the invariant from every state (R220). -/
theorem hostReset_inv (s : State) : s.hostReset.Inv where
  mem := Memory.nil_wf
  fl := .inl rfl
  pc := Nat.zero_le 256
  clear _ := ⟨rfl, rfl, rfl⟩
  record hf := by cases hf

theorem reset_inv : State.reset.Inv := hostReset_inv State.reset

/-- A Load is carried out only while Stopped, where the fault record stays clear (R75, R224). -/
theorem hostLoad_keeps_inv {s : State} (h : s.Inv) (bytes : List Byte) : (s.hostLoad bytes).2.Inv := by
  rcases s.hostLoad_cases bytes with ⟨hs, -, e⟩ | ⟨-, -, e⟩ | ⟨-, e⟩ <;> rw [e]
  · have hrun : s.runState ≠ .faulted := by simp [hs]
    exact h.of_sameFaultRecord hrun hrun ⟨rfl, rfl, rfl⟩ (Memory.load_wf h.mem 0 bytes) h.fl h.pc
  · exact h
  · exact h

/-- A Run is carried out only while Stopped, so a clear fault record is clear while Running (R225). -/
theorem hostRun_keeps_inv {s : State} (h : s.Inv) : s.hostRun.2.Inv := by
  rcases s.hostRun_cases with ⟨hs, e⟩ | ⟨-, e⟩ <;> rw [e]
  · exact h.of_sameFaultRecord (by simp [hs]) (by simp) ⟨rfl, rfl, rfl⟩ h.mem h.fl h.pc
  · exact h

/-- Every host request keeps the invariant. -/
theorem request_keeps_inv {s : State} (h : s.Inv) (r : HostRequest) : (s.request r).2.Inv := by
  cases r with
  | reset => exact hostReset_inv s
  | load bytes => exact hostLoad_keeps_inv h bytes
  | run => exact hostRun_keeps_inv h

/-- The induction over the moves of core and host, once for the whole invariant. -/
theorem Reachable.inv {s : State} (h : Reachable s) : s.Inv := by
  induction h with
  | reset => exact reset_inv
  | core _ e ih => exact step_keeps_inv ih e
  | host r _ ih => exact request_keeps_inv ih r

/-- Settles O42: the invariant by induction over the moves of core and host; the next state because a step always answers
one. -/
theorem reachableStatesMeetTheInvariant : Obligations.ReachableStatesMeetTheInvariant := by
  unfold Obligations.ReachableStatesMeetTheInvariant
  intro s hs
  obtain ⟨t, e⟩ := step_total s
  exact ⟨hs.inv, t, e, hs.core e⟩

end Sys2Proof.Machine
end

section
/-! PROOF. `exec` decided by the instruction: what completes and what faults, what an effect writes and what it does not
read, and a step from two states that fetch alike. -/

namespace Sys2Proof.Machine

variable {s t u : State} {i : Instr}

/-! ### Opcode bytes and the instructions they make -/

/-- No two opcodes share a byte (R92, R93). -/
theorem opcode_byte_injective : Function.Injective Opcode.byte := fun o o' e =>
  Option.some.inj (by rw [← dispatch_byte o, e, dispatch_byte])

/-- No other opcode makes a CMP of its operand bytes. -/
theorem opcode_instr_ne_cmp {o : Opcode} (ho : o ≠ .cmp) (a b c d : Byte) : o.instr a b ≠ .cmp c d := by
  intro e
  have hop : (o.instr a b).opcode = .cmp := congrArg Instr.opcode e
  exact ho (by rwa [Opcode.instr_opcode] at hop)

/-- The byte 1 is the opcode of HLT alone, whatever the candidate operand bytes (R93). -/
theorem opcode_byte_eq_hlt_iff (o : Opcode) (a b : Byte) : o.byte = 0x01 ↔ o.instr a b = .hlt := by
  cases o <;> simp [Opcode.instr, Opcode.byte]

/-- Which opcode bytes and candidate operand bytes make an instruction with an index above 7 (R183). -/
theorem exists_firstBadIndex_iff (o : Opcode) (a b : Byte) :
    (∃ r, firstBadIndex (o.instr a b) = some r) ↔
      ((o.byte = 0x82 ∨ o.byte = 0x47) ∧ 7 < a.toNat) ∨
      ((o.byte = 0xA2 ∨ o.byte = 0xA7) ∧ (7 < a.toNat ∨ 7 < b.toNat)) := by
  simp only [← Option.isSome_iff_exists, firstBadIndex, List.find?_isSome, decide_eq_true_eq]
  cases o <;> simp [Opcode.instr, Instr.regIndices, Opcode.byte]

/-! ### Either an effect or a bad index, never both -/

/-- An instruction that has an effect names no register above 7 (R183). -/
theorem Effect.firstBadIndex_eq_none (h : Effect s i u) : firstBadIndex i = none := by
  cases h with
  | hlt => rfl
  | ldi ha | prn ha => simp [firstBadIndex, Instr.regIndices, Nat.le_of_lt_succ ha]
  | mul ha hb | cmp ha hb =>
    simp [firstBadIndex, Instr.regIndices, Nat.le_of_lt_succ ha, Nat.le_of_lt_succ hb]

/-- The effect of an instruction is a function of the state it starts from. -/
theorem Effect.unique {u' : State} (h : Effect s i u) (h' : Effect s i u') : u = u' := by
  cases h <;> cases h' <;> rfl

/-- An instruction with an effect completes with it and the advance. -/
theorem exec_of_effect (h : Effect s i u) : exec i s = .next (u.advance i.length) := by
  rcases exec_cases i s with ⟨u', hu', e⟩ | ⟨b, hb, -⟩
  · rw [e, h.unique hu']
  · simp [h.firstBadIndex_eq_none] at hb

/-- An instruction with an index above 7 faults on the first such index (R183, R186). -/
theorem exec_of_firstBadIndex {b : Byte} (h : firstBadIndex i = some b) (s : State) :
    exec i s = .next (s.raise (.registerIndexFault b)) := by
  rcases exec_cases i s with ⟨u, hu, -⟩ | ⟨b', hb', e⟩
  · simp [hu.firstBadIndex_eq_none] at h
  · rw [h, Option.some.injEq] at hb'
    rw [e, hb']

/-- `exec_cases` for a known next state. -/
theorem exec_inv (h : exec i s = .next t) :
    (∃ u, Effect s i u ∧ t = u.advance i.length) ∨
    (∃ b, firstBadIndex i = some b ∧ t = s.raise (.registerIndexFault b)) := by
  rcases exec_cases i s with ⟨u, hu, e⟩ | ⟨b, hb, e⟩ <;> rw [e, Host.Outcome.next.injEq] at h
  · exact .inl ⟨u, hu, h.symm⟩
  · exact .inr ⟨b, hb, h.symm⟩

/-! ### What an effect writes, by instruction -/

/-- An instruction that completes does not leave a Running core Faulted (R185). -/
theorem Effect.runState_ne_faulted (h : Effect s i u) (hr : s.runState = .running) : u.runState ≠ .faulted := by
  rcases h.runState_cases with e | ⟨-, e⟩ <;> simp [e, hr]

/-- Of the instructions that complete, HLT alone stops a Running core (R36, R170). -/
theorem Effect.stopped_iff (h : Effect s i u) (hr : s.runState = .running) : u.runState = .stopped ↔ i = .hlt := by
  cases h <;> simp [hr]

/-- Only CMP writes `FL` (R32). -/
theorem Effect.fl_eq (h : Effect s i u) (hi : ∀ a b, i ≠ .cmp a b) : u.fl = s.fl := by
  cases h with
  | @cmp a b => exact absurd rfl (hi a b)
  | ldi | prn | hlt | mul => rfl

/-- Only PRN writes OUT, and it appends the one byte of the register it names (R40, R141). -/
theorem Effect.out_cases (h : Effect s i u) :
    u.out = s.out ∨ ∃ (a : Byte) (r : RegIdx), i = .prn a ∧ a.toNat = r.val ∧ u.out = s.out ++ [s.readReg r] := by
  cases h with
  | @prn a ha => exact .inr ⟨a, ⟨a.toNat, ha⟩, rfl, rfl, rfl⟩
  | ldi | hlt | mul | cmp => exact .inl rfl

/-- A register write changes no other register. -/
theorem sameRegsExcept_writeReg (s : State) (d : RegIdx) (v : Byte) : SameRegsExcept d s (s.writeReg d v) :=
  fun j hj => by simp [hj]

/-- A register that a write changed is the one written. -/
theorem eq_of_writeReg_readReg_ne {d r : RegIdx} {v : Byte} (h : (s.writeReg d v).readReg r ≠ s.readReg r) : r = d :=
  Decidable.byContradiction fun hne => h (sameRegsExcept_writeReg s d v r hne)

/-- Only LDI and MUL write a register, the one their first operand names (R24, R140, R155). -/
theorem Effect.opcode_of_readReg_ne {r : RegIdx} {o : Opcode} {a b : Byte} (h : Effect s (o.instr a b) u)
    (hr : u.readReg r ≠ s.readReg r) : (o = .ldi ∨ o = .mul) ∧ a.toNat = r.val := by
  cases o with
  | ldi =>
    cases h
    exact ⟨.inl rfl, (congrArg Fin.val (eq_of_writeReg_readReg_ne hr)).symm⟩
  | mul =>
    cases h
    exact ⟨.inr rfl, (congrArg Fin.val (eq_of_writeReg_readReg_ne hr)).symm⟩
  | prn | hlt | cmp =>
    cases h
    exact absurd rfl hr

/-! ### What an effect does not read -/

theorem State.writeReg_comm {j k : RegIdx} (h : j ≠ k) (s : State) (v w : Byte) :
    (s.writeReg j v).writeReg k w = (s.writeReg k w).writeReg j v := by
  have hx : (s.x.set j v).set k w = (s.x.set k w).set j v := Vector.set_comm v w (Fin.val_ne_of_ne h)
  simp only [State.writeReg, hx]

/-- An instruction neither reads nor writes a register it does not name (R23). -/
theorem Effect.writeReg_of_unnamed {r : RegIdx} (h : Effect s i u) (hr : ∀ b ∈ i.regIndices, b.toNat ≠ r.val)
    (v : Byte) : Effect (s.writeReg r v) i (u.writeReg r v) := by
  have hne : ∀ b, ∀ hb : b.toNat < 8, b ∈ i.regIndices → (⟨b.toNat, hb⟩ : RegIdx) ≠ r :=
    fun b _ hm e => hr b hm (congrArg Fin.val e)
  have hread : ∀ b, ∀ hb : b.toNat < 8, b ∈ i.regIndices →
      (s.writeReg r v).readReg ⟨b.toNat, hb⟩ = s.readReg ⟨b.toNat, hb⟩ :=
    fun b hb hm => sameRegsExcept_writeReg s r v _ (hne b hb hm)
  cases h with
  | @ldi a imm ha =>
    rw [State.writeReg_comm (hne a ha (by simp [Instr.regIndices]))]
    exact .ldi ha
  | @prn a ha =>
    rw [← hread a ha (by simp [Instr.regIndices])]
    exact .prn ha
  | hlt => exact .hlt
  | @mul a b ha hb =>
    rw [State.writeReg_comm (hne a ha (by simp [Instr.regIndices])), ← hread a ha (by simp [Instr.regIndices]),
      ← hread b hb (by simp [Instr.regIndices])]
    exact .mul ha hb
  | @cmp a b ha hb =>
    rw [← hread a ha (by simp [Instr.regIndices]), ← hread b hb (by simp [Instr.regIndices])]
    exact .cmp ha hb

/-- An instruction other than CMP neither reads nor writes `FL` (R32, R34). -/
theorem Effect.writeFlags_of_ne_cmp (h : Effect s i u) (hi : ∀ a b, i ≠ .cmp a b) (v : Byte) :
    Effect (s.writeFlags v) i (u.writeFlags v) := by
  cases h with
  | ldi ha => exact .ldi ha
  | prn ha => exact .prn ha
  | hlt => exact .hlt
  | mul ha hb => exact .mul ha hb
  | @cmp a b => exact absurd rfl (hi a b)

/-- CMP overwrites all of `FL` and does not read it (R32, R34). -/
theorem Effect.cmp_writeFlags {a b : Byte} (h : Effect s (.cmp a b) u) (v : Byte) :
    Effect (s.writeFlags v) (.cmp a b) u := by
  cases h with
  | cmp ha hb => exact .cmp ha hb

/-- An instruction appends to OUT at most one byte, the same whatever OUT held, and does not read it (R40). -/
theorem Effect.append_out (h : Effect s i u) :
    ∃ emitted : List Byte, emitted.length ≤ 1 ∧ u.out = s.out ++ emitted ∧
      ∀ earlier, Effect { s with out := earlier } i { u with out := earlier ++ emitted } := by
  cases h with
  | @prn a ha => exact ⟨[s.readReg ⟨a.toNat, ha⟩], Nat.le_refl 1, rfl, fun _ => .prn ha⟩
  | ldi | hlt | mul | cmp =>
    refine ⟨[], Nat.zero_le 1, (List.append_nil _).symm, fun _ => ?_⟩
    rw [List.append_nil]
    constructor

/-! ### A step from two states that fetch alike -/

/-- From states with the same `pc`, memory and run state a step takes the same branch: both idle, both the same fault,
or both the same instruction, which completes in the second state with whatever effect it has there. -/
theorem step_congr {s' : State} (h : step s = .next t) (hpc : s'.pc = s.pc) (hmem : s'.mem = s.mem)
    (hrun : s'.runState = s.runState) :
    (s.runState ≠ .running ∧ t = s ∧ step s' = .next s') ∨
    (s.runState = .running ∧ ∃ f, t = s.raise f ∧ step s' = .next (s'.raise f)) ∨
    (s.runState = .running ∧ ∃ o a b u, dispatch (s.byteAt 0) = some o ∧ Effect s (o.instr a b) u ∧
      t = u.advance o.length ∧ ∀ u', Effect s' (o.instr a b) u' → step s' = .next (u'.advance o.length)) := by
  have hfetch := State.fetchInstr_congr hpc hmem
  by_cases hr : s.runState = .running
  · have hr' : s'.runState = .running := hrun.trans hr
    rcases s.fetchInstr_cases with ⟨o, -, hd, e⟩ | ⟨-, -, e⟩ | ⟨-, e⟩
    · rw [step_of_instr hr e] at h
      rw [step_of_instr hr' (hfetch.trans e)]
      rcases exec_inv h with ⟨u, hu, rfl⟩ | ⟨r, hb, rfl⟩
      · refine .inr (.inr ⟨hr, o, _, _, u, hd, hu, by rw [Instr.length, Opcode.instr_opcode], fun u' hu' => ?_⟩)
        rw [exec_of_effect hu', Instr.length, Opcode.instr_opcode]
      · exact .inr (.inl ⟨hr, _, rfl, exec_of_firstBadIndex hb s'⟩)
    all_goals
      rw [step_of_fault hr e, Host.Outcome.next.injEq] at h
      exact .inr (.inl ⟨hr, _, h.symm, step_of_fault hr' (hfetch.trans e)⟩)
  · rw [step_idle hr, Host.Outcome.next.injEq] at h
    exact .inl ⟨hr, h.symm, step_idle (hrun ▸ hr)⟩

end Sys2Proof.Machine
end

section
/-! PROOF. The statements about the state (10_state.md): the invariant, the Stack Pointer, the run state, `pc`, `FL`, the
registers, OUT, memory and the reset values. -/

namespace Sys2Proof.Machine

variable {s t u : State}

/-- Settles O40: each branch of `step_cases` keeps the invariant, by `step_keeps_inv`. -/
theorem stepKeepsTheInvariant : Obligations.StepKeepsTheInvariant :=
  fun _ _ h e => step_keeps_inv h e

/-- Settles O39: the reset state is what a Reset leads to, by `reset_inv`. -/
theorem resetMeetsTheInvariant : Obligations.ResetMeetsTheInvariant := reset_inv

/-! ### The reset values -/

/-- The only distinction of `x[7]` is its reset value (R22, R43). -/
theorem reset_readReg (r : RegIdx) : State.reset.readReg r = if r = 7 then 0xF4 else 0 := by
  revert r
  decide

/-- Settles O45: every field by evaluation, the registers by `reset_readReg`. -/
theorem resetLeavesTheStatedValues : Obligations.ResetLeavesTheStatedValues :=
  ⟨Memory.read_nil, reset_readReg, rfl, rfl, rfl, rfl, rfl, rfl, rfl⟩

/-! ### The Stack Pointer is an ordinary register -/

/-- What a register that the instruction does not name holds is kept and changes nothing else (R23). -/
theorem exec_writeReg_of_unnamed {i : Instr} {r : RegIdx} (hr : ∀ b ∈ i.regIndices, b.toNat ≠ r.val)
    (h : exec i s = .next t) (v : Byte) : exec i (s.writeReg r v) = .next (t.writeReg r v) := by
  rcases exec_inv h with ⟨u, hu, rfl⟩ | ⟨b, hb, rfl⟩
  · exact exec_of_effect (hu.writeReg_of_unnamed hr v)
  · exact exec_of_firstBadIndex hb _

/-- The result of MUL as a number (R152). -/
theorem aluMul_toNat (va vb : Byte) : (aluMul va vb).toNat = va.toNat * vb.toNat % 256 := by
  simp [aluMul]

/-- The `FL` that CMP writes (R153, R156). -/
theorem aluCmp_setWidth (va vb : Byte) :
    (aluCmp va vb).setWidth 8 = if va.toNat = vb.toNat then 1#8 else if va.toNat > vb.toNat then 2 else 4 := by
  rcases aluCmp_cases va vb with ⟨h, e⟩ | ⟨h, e⟩ | ⟨h, e⟩ <;> rw [e]
  · rw [if_pos h]
  · rw [if_neg (by omega), if_pos h]
    rfl
  · rw [if_neg (by omega), if_neg (by omega)]
    rfl

/-- Settles O19: the effect of an instruction on a register it does not name, then the effect of each of the four
instructions at any two legal indices. -/
theorem stackPointerIsAnOrdinaryRegister : Obligations.StackPointerIsAnOrdinaryRegister := by
  unfold Obligations.StackPointerIsAnOrdinaryRegister
  refine ⟨fun i s t r v hr h => exec_writeReg_of_unnamed hr h v, fun s r v => State.fetchInstr_congr rfl rfl,
    fun d r a b imm s hd hr => ?_, reset_readReg⟩
  have ha : a.toNat < 8 := hd ▸ d.isLt
  have hb : b.toNat < 8 := hr ▸ r.isLt
  obtain rfl : d = ⟨a.toNat, ha⟩ := Fin.ext hd.symm
  obtain rfl : r = ⟨b.toNat, hb⟩ := Fin.ext hr.symm
  refine ⟨⟨_, exec_of_effect (.ldi ha), ?_, sameRegsExcept_writeReg s _ imm, rfl, rfl, rfl, rfl⟩,
    ⟨_, exec_of_effect (.prn ha), rfl, fun _ => rfl, rfl, rfl, rfl, rfl⟩,
    ⟨_, exec_of_effect (.mul ha hb), ?_, sameRegsExcept_writeReg s _ _, rfl, rfl, rfl, rfl⟩,
    ⟨_, exec_of_effect (.cmp ha hb), aluCmp_setWidth _ _, fun _ => rfl, rfl, rfl, rfl, rfl⟩⟩
  · simp
  · simp [aluMul_toNat]

/-! ### The run state after a step -/

/-- Settles O26: in each branch of `step_cases` one of the three conditions holds and excludes the others. -/
theorem runStateTransitionsOfAStep : Obligations.RunStateTransitionsOfAStep := by
  unfold Obligations.RunStateTransitionsOfAStep
  intro s t hr h
  obtain ⟨hn, -⟩ | ⟨-, f, rfl, hf⟩ | ⟨-, hp, o, u, hd, hu, rfl⟩ := step_cases h
  · exact absurd hr hn
  · rw [State.raise_runState]
    obtain ⟨hp, -⟩ | ⟨-, hd, -⟩ | ⟨o, r, -, hd, hb, -⟩ := hf
    · exact ⟨iff_of_false nofun fun ⟨hp', _⟩ => by omega, iff_of_true rfl (.inl hp)⟩
    · refine ⟨iff_of_false nofun fun ⟨_, e⟩ => ?_, iff_of_true rfl (.inr (.inl hd))⟩
      rw [e] at hd
      cases hd
    · have hbad := (exists_firstBadIndex_iff o (s.byteAt 1) (s.byteAt 2)).mp ⟨r, hb⟩
      rw [byte_of_dispatch hd, opcode_byte_eq_hlt_iff o (s.byteAt 1) (s.byteAt 2)]
      refine ⟨iff_of_false nofun fun ⟨_, e⟩ => ?_, iff_of_true rfl (.inr (.inr hbad))⟩
      rw [e] at hb
      cases hb
  · have hgood : ¬ ∃ r, firstBadIndex (o.instr (s.byteAt 1) (s.byteAt 2)) = some r := by
      simp [hu.firstBadIndex_eq_none]
    rw [exists_firstBadIndex_iff, ← byte_of_dispatch hd] at hgood
    rw [State.advance_runState, hu.stopped_iff hr, ← opcode_byte_eq_hlt_iff, ← byte_of_dispatch hd]
    refine ⟨(and_iff_right hp).symm, iff_of_false (hu.runState_ne_faulted hr) ?_⟩
    rintro (hp' | hd' | hbad)
    · omega
    · simp [hd] at hd'
    · exact hgood hbad

/-! ### `pc` -/

/-- A completing instruction advances `pc` by its declared length, without a wrap (R67, R125). -/
theorem Effect.advance_pc_toNat {i : Instr} {o : Opcode} (h : Effect s i u) (hp : s.pc.toNat ≤ 253) :
    (u.advance o.length).pc.toNat = s.pc.toNat + o.length := by
  have hlen : o.length ≤ 3 := by cases o <;> decide
  rw [← h.pc_eq] at hp ⊢
  exact State.advance_pc_toNat (by omega)

/-- Settles O27: a fault leaves `pc`, a completing instruction advances it by the length its opcode byte declares. -/
theorem pcAdvancesByTheDeclaredLengthOnly : Obligations.PcAdvancesByTheDeclaredLengthOnly := by
  unfold Obligations.PcAdvancesByTheDeclaredLengthOnly
  refine ⟨rfl, fun s t hr h => ?_⟩
  obtain ⟨hn, -⟩ | ⟨-, f, rfl, -⟩ | ⟨-, hp, o, u, hd, hu, rfl⟩ := step_cases h
  · exact absurd hr hn
  · exact ⟨fun _ => rfl, fun hf => absurd rfl hf⟩
  · refine ⟨fun hf => absurd hf (hu.runState_ne_faulted hr), fun _ => ?_⟩
    rw [hu.advance_pc_toNat hp, byte_of_dispatch hd]
    cases o <;> exact ⟨rfl, by decide⟩

/-- One step never decreases `pc` (R29). -/
theorem step_pc_le (h : step s = .next t) : s.pc.toNat ≤ t.pc.toNat := by
  obtain ⟨-, rfl⟩ | ⟨-, f, rfl, -⟩ | ⟨-, hp, o, u, -, hu, rfl⟩ := step_cases h
  · exact Nat.le_refl _
  · exact Nat.le_refl _
  · rw [hu.advance_pc_toNat hp]
    exact Nat.le_add_right _ _

/-- Settles O28, by induction on the number of steps. -/
theorem pcNeverDecreasesAlongARun : Obligations.PcNeverDecreasesAlongARun := by
  unfold Obligations.PcNeverDecreasesAlongARun
  intro k
  induction k with
  | zero =>
    intro s t h
    cases h
    exact Nat.le_refl _
  | succ k ih =>
    intro s t h
    obtain ⟨u, hu⟩ := step_total s
    rw [run_succ hu] at h
    exact (step_pc_le hu).trans (ih u t h)

/-! ### Who writes `FL`, the registers, OUT and memory -/

/-- Settles O29: of the effects CMP's alone writes `FL`, from the two registers; fault entry leaves `FL`. -/
theorem flagsAreWrittenOnlyByCmp : Obligations.FlagsAreWrittenOnlyByCmp := by
  unfold Obligations.FlagsAreWrittenOnlyByCmp
  refine ⟨fun s t h hfl => ?_, fun p q a b s hp hq => ?_, fun i s t hi h => ?_, rfl, fun _ => rfl⟩
  · obtain ⟨-, rfl⟩ | ⟨-, f, rfl, -⟩ | ⟨hr, -, o, u, hd, hu, rfl⟩ := step_cases h
    · exact absurd rfl hfl
    · exact absurd rfl hfl
    · by_cases ho : o = .cmp
      · subst ho
        exact ⟨hr, byte_of_dispatch hd⟩
      · exact absurd (hu.fl_eq (opcode_instr_ne_cmp ho _ _)) hfl
  · have ha : a.toNat < 8 := hp ▸ p.isLt
    have hb : b.toNat < 8 := hq ▸ q.isLt
    have hcmp := Effect.cmp (s := s) ha hb
    exact ⟨_, fun old => ⟨_, exec_of_effect (hcmp.cmp_writeFlags old), rfl⟩⟩
  · rcases exec_inv h with ⟨u, hu, rfl⟩ | ⟨b, -, rfl⟩
    · exact hu.fl_eq hi
    · rfl

/-- Settles O30: a changed register leaves only the branch of `step_cases` that completes, with LDI or MUL. -/
theorem registersAreWrittenOnlyByLdiAndMul : Obligations.RegistersAreWrittenOnlyByLdiAndMul := by
  unfold Obligations.RegistersAreWrittenOnlyByLdiAndMul
  intro s t r h hreg
  obtain ⟨-, rfl⟩ | ⟨-, f, rfl, -⟩ | ⟨hr, hp, o, u, hd, hu, rfl⟩ := step_cases h
  · exact absurd rfl hreg
  · exact absurd rfl hreg
  · obtain ⟨ho, ha⟩ := hu.opcode_of_readReg_ne hreg
    refine ⟨hr, hp, ?_, ha⟩
    rw [byte_of_dispatch hd]
    exact ho.imp (congrArg Opcode.byte) (congrArg Opcode.byte)

/-- Settles O31: only the branch of `step_cases` that completes writes OUT, and there only PRN. -/
theorem outputGrowsOnlyByPrn : Obligations.OutputGrowsOnlyByPrn := by
  unfold Obligations.OutputGrowsOnlyByPrn
  intro s t h
  obtain ⟨-, rfl⟩ | ⟨-, f, rfl, -⟩ | ⟨hr, hp, o, u, hd, hu, rfl⟩ := step_cases h
  · exact .inl rfl
  · exact .inl rfl
  · rcases hu.out_cases with e | ⟨a, r, hi, ha, e⟩
    · exact .inl e
    · cases o with
      | prn =>
        cases hi
        exact .inr ⟨hr, hp, byte_of_dispatch hd, r, ha, e⟩
      | ldi | hlt | mul | cmp => cases hi

/-- No step writes memory (R38). -/
theorem step_mem_eq (h : step s = .next t) : t.mem = s.mem := by
  obtain ⟨-, rfl⟩ | ⟨-, f, rfl, -⟩ | ⟨-, -, o, u, -, hu, rfl⟩ := step_cases h
  · rfl
  · rfl
  · exact hu.mem_eq

/-- A memory read succeeds exactly at the 256 addresses (R38, R61). -/
theorem memRead_ok_iff (s : State) (a : Nat) : (∃ v, s.memRead a = .ok v) ↔ a < 256 := by
  rcases s.memRead_cases a with ⟨ha, e⟩ | ⟨ha, e⟩
  · simp [e, ha]
  · simp [e, Nat.succ_le_of_lt ha]

/-- Settles O32: no branch of `step_cases` writes memory; Load does, byte `k` at address `k`. -/
theorem memoryIsChangedByNoOpcode : Obligations.MemoryIsChangedByNoOpcode := by
  unfold Obligations.MemoryIsChangedByNoOpcode
  refine ⟨Memory.read_nil, memRead_ok_iff, fun s t h a => by rw [step_mem_eq h],
    fun s bytes hwf hs hlen k hk => ?_⟩
  rcases s.hostLoad_cases bytes with ⟨-, -, e⟩ | ⟨-, hlong, -⟩ | ⟨hns, -⟩
  · have hload := Memory.read_load_inside hwf (a := 0) (by omega) hk
    rw [Nat.zero_add] at hload
    rw [e, hload]
  · omega
  · exact absurd hs hns

/-! ### What no step reads -/

/-- Settles O33: the two steps take one branch (`step_congr`); CMP has one effect in both, any other effect keeps `FL`. -/
theorem noStepReadsTheFlags : Obligations.NoStepReadsTheFlags := by
  unfold Obligations.NoStepReadsTheFlags
  intro s t v h
  obtain ⟨hn, rfl, e⟩ | ⟨-, f, rfl, e⟩ | ⟨hr, o, a, b, u, hd, hu, rfl, e⟩ :=
    step_congr (s' := s.writeFlags v) h rfl rfl rfl
  · exact ⟨v, e, by simp [hn]⟩
  · exact ⟨v, e, by simp⟩
  · have hbyte := byte_of_dispatch hd
    by_cases ho : o = .cmp
    · subst ho
      refine ⟨_, e u (hu.cmp_writeFlags v), ?_⟩
      rw [if_pos ⟨hr, hbyte, hu.runState_ne_faulted hr⟩]
      rfl
    · have hi := opcode_instr_ne_cmp ho a b
      have hne : s.byteAt 0 ≠ Opcode.cmp.byte := fun hc => ho (opcode_byte_injective (hbyte.symm.trans hc))
      refine ⟨v, e _ (hu.writeFlags_of_ne_cmp hi v), ?_⟩
      rw [if_neg fun ⟨_, hc, _⟩ => hne hc]
      exact ⟨hu.fl_eq hi, rfl⟩

/-- Settles O34: the two steps take one branch (`step_congr`), with the same bytes appended (`Effect.append_out`). -/
theorem noStepReadsTheOutput : Obligations.NoStepReadsTheOutput := by
  unfold Obligations.NoStepReadsTheOutput
  intro s t earlier h
  obtain ⟨-, rfl, e⟩ | ⟨-, f, rfl, e⟩ | ⟨-, o, a, b, u, -, hu, rfl, e⟩ :=
    step_congr (s' := { s with out := earlier }) h rfl rfl rfl
  · exact ⟨[], Nat.zero_le 1, (List.append_nil _).symm, by rwa [List.append_nil]⟩
  · exact ⟨[], Nat.zero_le 1, (List.append_nil _).symm, by rwa [List.append_nil]⟩
  · obtain ⟨emitted, hlen, hout, heff⟩ := hu.append_out
    exact ⟨emitted, hlen, hout, e _ (heff earlier)⟩

end Sys2Proof.Machine
end

section
/-! PROOF. The statements about memory (20_memory.md section 5): what a Load writes, and which Loads are refused. -/

namespace Sys2Proof.Machine

variable {s : State} {bytes : List Byte}

/-! ### The outcome of a Load, by run state and length -/

theorem State.hostLoad_of_le (hs : s.runState = .stopped) (hlen : bytes.length ≤ 256) :
    s.hostLoad bytes = (.accepted, { s with mem := s.mem.load 0 bytes }) := by
  rcases s.hostLoad_cases bytes with ⟨-, -, e⟩ | ⟨-, hlong, -⟩ | ⟨hns, -⟩
  · exact e
  · omega
  · exact absurd hs hns

theorem State.hostLoad_of_gt (hs : s.runState = .stopped) (hlen : 256 < bytes.length) :
    s.hostLoad bytes = (.loadOverflow, s) := by
  rcases s.hostLoad_cases bytes with ⟨-, hle, -⟩ | ⟨-, -, e⟩ | ⟨hns, -⟩
  · omega
  · exact e
  · exact absurd hs hns

theorem State.hostLoad_of_ne_stopped (hs : s.runState ≠ .stopped) (bytes : List Byte) :
    s.hostLoad bytes = (.refused, s) := by
  rcases s.hostLoad_cases bytes with ⟨hst, -, -⟩ | ⟨hst, -, -⟩ | ⟨-, e⟩
  · exact absurd hst hs
  · exact absurd hst hs
  · exact e

/-- Settles O47: the accepted Load of `State.hostLoad_of_le`, read inside the image and outside it by the laws of memory. -/
theorem loadWritesTheImageAndNothingElse : Obligations.LoadWritesTheImageAndNothingElse := by
  unfold Obligations.LoadWritesTheImageAndNothingElse
  intro s bytes hwf hs hlen
  refine ⟨_, State.hostLoad_of_le hs hlen, fun k hk => ?inside, fun a ha => ?outside, rfl, ?empty⟩
  case inside => simpa using Memory.read_load_inside hwf (a := 0) (by omega) hk
  case outside => exact Memory.read_load_outside hwf (.inr (by omega))
  case empty =>
    rintro rfl
    rfl

/-- Settles O48: one equation of Load for each refusal. -/
theorem refusedLoadsChangeNothing : Obligations.RefusedLoadsChangeNothing :=
  fun _ bytes => ⟨State.hostLoad_of_gt, fun hs => State.hostLoad_of_ne_stopped hs bytes⟩

end Sys2Proof.Machine
end

section
/-! PROOF. The opcode map read both ways (30_encoding.md sections 1 to 4): which bytes resolve, which bytes an instruction
is, and what the decoder answers for each. -/

namespace Sys2Proof

variable {ir a b : Byte} {i : Instr}

/-! ### Which bytes resolve -/

/-- The Dispatcher has no entry exactly for the bytes that are no opcode's (R97). -/
theorem dispatch_eq_none_iff : dispatch ir = none ↔ ∀ o : Opcode, ir ≠ o.byte := by
  constructor
  · rintro h o rfl
    simp at h
  · intro h
    cases hd : dispatch ir with
    | none => rfl
    | some o => exact absurd (byte_of_dispatch hd) (h o)

/-- The opcode map R93, its five bytes written out. -/
theorem forall_ne_opcode_byte_iff :
    (∀ o : Opcode, ir ≠ o.byte) ↔ ir ≠ 0x82 ∧ ir ≠ 0x47 ∧ ir ≠ 0x01 ∧ ir ≠ 0xA2 ∧ ir ≠ 0xA7 := by
  constructor
  · exact fun h => ⟨h .ldi, h .prn, h .hlt, h .mul, h .cmp⟩
  · rintro ⟨hldi, hprn, hhlt, hmul, hcmp⟩ o
    cases o with
    | ldi => exact hldi
    | prn => exact hprn
    | hlt => exact hhlt
    | mul => exact hmul
    | cmp => exact hcmp

/-! ### What the decoder answers -/

/-- The decoder gives an instruction exactly when the opcode byte resolves: the opcode's, of the two operand bytes. -/
theorem decode_eq_ok_iff : decode ir a b = .ok i ↔ ∃ o, dispatch ir = some o ∧ o.instr a b = i := by
  cases hd : dispatch ir with
  | none => simp [decode_none a b hd]
  | some o => simp [decode_some hd]

/-- The decoder names the opcode byte exactly when it does not resolve (R97). -/
theorem decode_eq_error_iff : decode ir a b = .error (.unknownOpcode ir) ↔ dispatch ir = none := by
  cases hd : dispatch ir with
  | none => simp [decode_none a b hd]
  | some o => simp [decode_some hd]

theorem decodeBytes_of_dispatch {o : Opcode} (h : dispatch ir = some o) (a b : Byte) (rest : List Byte) :
    decodeBytes (ir :: a :: b :: rest) = some (o.instr a b) := by
  simp [decodeBytes, decode_some h, Except.toOption]

/-- Bytes that decode are an opcode's byte and two candidate operand bytes, whatever follows. -/
theorem decodeBytes_inv {bytes : List Byte} (h : decodeBytes bytes = some i) :
    ∃ o a b rest, bytes = Opcode.byte o :: a :: b :: rest ∧ i = o.instr a b := by
  match bytes with
  | ir :: a :: b :: rest =>
    cases hd : dispatch ir with
    | none => simp [decodeBytes, decode_none a b hd, Except.toOption] at h
    | some o =>
      rw [decodeBytes_of_dispatch hd, Option.some.injEq] at h
      exact ⟨o, a, b, rest, by rw [byte_of_dispatch hd], h.symm⟩
  | [] | [_] | [_, _] => cases h

/-! ### The bytes of an instruction -/

/-- An instruction made of an opcode and two candidate operand bytes is as many of the three as the opcode declares
(R90, R96). -/
theorem encode_instr (o : Opcode) (a b : Byte) : encode (o.instr a b) = [o.byte, a, b].take o.length := by
  cases o <;> rfl

/-- The candidate operand bytes of an instruction followed by two more bytes make it again (R95, R96). -/
theorem encode_append_two (i : Instr) (x y : Byte) (rest : List Byte) :
    ∃ a b tail, encode i ++ x :: y :: rest = i.opcode.byte :: a :: b :: tail ∧ i.opcode.instr a b = i := by
  cases i with
  | ldi a imm => exact ⟨a, imm, x :: y :: rest, rfl, rfl⟩
  | prn a => exact ⟨a, x, y :: rest, rfl, rfl⟩
  | hlt => exact ⟨x, y, rest, rfl, rfl⟩
  | mul a b => exact ⟨a, b, x :: y :: rest, rfl, rfl⟩
  | cmp a b => exact ⟨a, b, x :: y :: rest, rfl, rfl⟩

theorem Opcode.length_bounds (o : Opcode) : 1 ≤ o.length ∧ o.length ≤ 3 := by
  cases o <;> decide

/-- The operand bytes past the declared length play no part (R96). -/
theorem Opcode.instr_congr {o : Opcode} {a b a' b' : Byte} (ha : 1 < o.length → a' = a) (hb : 2 < o.length → b' = b) :
    o.instr a' b' = o.instr a b := by
  cases o with
  | hlt => rfl
  | prn => rw [ha (by decide), Opcode.instr, Opcode.instr]
  | ldi | mul | cmp => rw [ha (by decide), hb (by decide)]

end Sys2Proof
end

section
/-! PROOF. The fetch decided by `pc` and the opcode byte, what an effect does not read of memory, and which instructions
fault. -/

namespace Sys2Proof.Machine

variable {s t u : State} {i : Instr}

/-! ### The outcome of a fetch -/

/-- Where an instruction can execute, the three reads succeed (R122, R231). -/
theorem State.fetch_of_le (hp : s.pc.toNat ≤ 253) : s.fetch = .ok (s.byteAt 0, s.byteAt 1, s.byteAt 2) := by
  rcases s.fetch_cases with ⟨-, e⟩ | ⟨hp', -⟩
  · exact e
  · omega

theorem State.fetchInstr_of_some {o : Opcode} (hp : s.pc.toNat ≤ 253) (hd : dispatch (s.byteAt 0) = some o) :
    s.fetchInstr = .ok (o.instr (s.byteAt 1) (s.byteAt 2)) := by
  simp [State.fetchInstr, State.fetch_of_le hp, decode_some hd]

theorem State.fetchInstr_of_none (hp : s.pc.toNat ≤ 253) (hd : dispatch (s.byteAt 0) = none) :
    s.fetchInstr = .error (.unknownOpcode (s.byteAt 0)) := by
  simp [State.fetchInstr, State.fetch_of_le hp, decode_none _ _ hd]

theorem State.fetchInstr_of_ge (hp : 254 ≤ s.pc.toNat) : s.fetchInstr = .error (.memoryFault s.fetchFaultAddr) := by
  rcases s.fetchInstr_cases with ⟨_, hp', -⟩ | ⟨hp', -⟩ | ⟨-, e⟩
  · omega
  · omega
  · exact e

/-! ### What a step does not read of memory -/

/-- Two states with one `pc` that agree on the opcode byte and on the declared bytes fetch alike (R65, R96). -/
theorem State.fetchInstr_congr_of_declared {s' : State} (hpc : s'.pc = s.pc) (hop : s'.byteAt 0 = s.byteAt 0)
    (hdecl : ∀ o, dispatch (s.byteAt 0) = some o → ∀ k, k < o.length → s'.byteAt k = s.byteAt k) :
    s'.fetchInstr = s.fetchInstr := by
  by_cases hp : s.pc.toNat ≤ 253
  · have hp' : s'.pc.toNat ≤ 253 := by rwa [hpc]
    cases hd : dispatch (s.byteAt 0) with
    | none => rw [State.fetchInstr_of_none hp hd, State.fetchInstr_of_none hp' (by rwa [hop]), hop]
    | some o =>
      rw [State.fetchInstr_of_some hp hd, State.fetchInstr_of_some hp' (by rwa [hop]),
        Opcode.instr_congr (hdecl o hd 1) (hdecl o hd 2)]
  · have hp' : 254 ≤ s.pc.toNat := by omega
    rw [State.fetchInstr_of_ge hp', State.fetchInstr_of_ge (by rwa [hpc]), State.fetchFaultAddr, State.fetchFaultAddr,
      hpc]

/-- An effect neither reads nor writes memory (R38). -/
theorem Effect.with_mem (h : Effect s i u) (m : Memory) : Effect { s with mem := m } i { u with mem := m } := by
  cases h with
  | ldi ha => exact .ldi ha
  | prn ha => exact .prn ha
  | hlt => exact .hlt
  | mul ha hb => exact .mul ha hb
  | cmp ha hb => exact .cmp ha hb

/-- Executing an instruction neither reads nor writes memory (R38). -/
theorem exec_with_mem (h : exec i s = .next t) (m : Memory) :
    exec i { s with mem := m } = .next { t with mem := m } := by
  rcases exec_inv h with ⟨u, hu, rfl⟩ | ⟨b, hb, rfl⟩
  · exact exec_of_effect (hu.with_mem m)
  · exact exec_of_firstBadIndex hb _

/-- Of memory, a step reads what its fetch reads and no more. -/
theorem step_with_mem {m : Memory} (hf : State.fetchInstr { s with mem := m } = s.fetchInstr)
    (h : step s = .next t) : step { s with mem := m } = .next { t with mem := m } := by
  by_cases hr : s.runState = .running
  · have hr' : State.runState { s with mem := m } = .running := hr
    cases e : s.fetchInstr with
    | ok i =>
      rw [step_of_instr hr e] at h
      rw [step_of_instr hr' (hf.trans e)]
      exact exec_with_mem h m
    | error f =>
      rw [step_of_fault hr e, Host.Outcome.next.injEq] at h
      rw [step_of_fault hr' (hf.trans e), ← h]
      rfl
  · have hr' : State.runState { s with mem := m } ≠ .running := hr
    rw [step_idle hr, Host.Outcome.next.injEq] at h
    rw [step_idle hr', h]

/-! ### Which instructions fault -/

/-- An instruction is ill-formed exactly when there is a bad index for it to report (R26, R183). -/
theorem wellFormed_eq_false_iff : i.wellFormed = false ↔ ∃ b, firstBadIndex i = some b := by
  simp [← Option.isSome_iff_exists, firstBadIndex, Instr.wellFormed]

/-- An instruction that completes does not make a core Faulted (R185). -/
theorem Effect.runState_ne_faulted_of_ne (h : Effect s i u) (hs : s.runState ≠ .faulted) : u.runState ≠ .faulted := by
  rcases h.runState_cases with e | ⟨-, e⟩ <;> simp [e, hs]

end Sys2Proof.Machine
end

section
/-! PROOF. The statements about the encoding (30_encoding.md): decoding and encoding, the declared length, the bytes that
are no opcode, ill-formed instructions and unused operand bytes. -/

namespace Sys2Proof.Machine

/-- Settles O2: the bytes of an instruction begin with its opcode's byte and its operands, from which the decoder makes it
again; and bytes that decode begin with as many bytes as the opcode they resolve to declares. -/
theorem decodeAndEncodeAgree : Obligations.DecodeAndEncodeAgree := by
  unfold Obligations.DecodeAndEncodeAgree
  constructor
  · intro i x y rest
    obtain ⟨a, b, tail, hbytes, hi⟩ := encode_append_two i x y rest
    rw [hbytes, decodeBytes_of_dispatch (dispatch_byte i.opcode), hi]
  · intro i bytes h
    obtain ⟨o, a, b, rest, rfl, rfl⟩ := decodeBytes_inv h
    refine ⟨[o.byte, a, b].drop o.length ++ rest, ?_⟩
    rw [encode_instr, ← List.append_assoc, List.take_append_drop]
    rfl

/-- Settles O3: the encoding is the declared part of the three bytes, by `encode_instr`, and the declared length is the
opcode's. -/
theorem lengthIsFixedByTheOpcodeByte : Obligations.LengthIsFixedByTheOpcodeByte := by
  unfold Obligations.LengthIsFixedByTheOpcodeByte
  intro ir a b i h
  obtain ⟨o, hd, rfl⟩ := decode_eq_ok_iff.mp h
  have hlen (c d : Byte) : (o.instr c d).length = o.length := by rw [Instr.length, Opcode.instr_opcode]
  rw [hlen]
  refine ⟨?_, o.length_bounds.1, o.length_bounds.2, fun a' b' => ⟨_, decode_some hd, hlen a' b'⟩⟩
  rw [byte_of_dispatch hd, encode_instr]

/-- Settles O4: the decoder rejects where the Dispatcher has no entry, and that depends on the opcode byte alone. -/
theorem decoderRejectsExactlyTheOtherOpcodes : Obligations.DecoderRejectsExactlyTheOtherOpcodes := by
  unfold Obligations.DecoderRejectsExactlyTheOtherOpcodes
  constructor
  · intro ir a b
    rw [decode_eq_error_iff, dispatch_eq_none_iff, forall_ne_opcode_byte_iff]
  · rintro ir a b a' b' ⟨i, h⟩
    obtain ⟨o, hd, -⟩ := decode_eq_ok_iff.mp h
    exact ⟨_, decode_some hd⟩

/-- Settles O16: an instruction completes, and then has no bad index, or faults on its first bad index. -/
theorem instructionsFaultExactlyWhenIllFormed : Obligations.InstructionsFaultExactlyWhenIllFormed := by
  unfold Obligations.InstructionsFaultExactlyWhenIllFormed
  intro i s t hs h
  rw [wellFormed_eq_false_iff]
  rcases exec_inv h with ⟨u, hu, rfl⟩ | ⟨b, hb, rfl⟩
  · exact iff_of_false (hu.runState_ne_faulted_of_ne hs) (by simp [hu.firstBadIndex_eq_none])
  · exact iff_of_true rfl ⟨b, hb⟩

/-- Settles O23: the fetch of a byte that does not resolve answers UnknownOpcode, and the step takes it. -/
theorem unknownOpcodeFaults : Obligations.UnknownOpcodeFaults := by
  unfold Obligations.UnknownOpcodeFaults
  intro s hr hp hldi hprn hhlt hmul hcmp
  have hd : dispatch (s.byteAt 0) = none :=
    dispatch_eq_none_iff.mpr (forall_ne_opcode_byte_iff.mpr ⟨hldi, hprn, hhlt, hmul, hcmp⟩)
  have hentry := s.raise_entry (.unknownOpcode (s.byteAt 0))
  rw [info_unknownOpcode] at hentry
  exact ⟨_, step_of_fault hr (State.fetchInstr_of_none hp hd), hentry⟩

/-- Settles O35: the two memories give one fetch (`State.fetchInstr_congr_of_declared`), and a step reads no more of memory. -/
theorem unusedOperandBytesHaveNoEffect : Obligations.UnusedOperandBytesHaveNoEffect :=
  fun _ _ _ hop hdecl h => step_with_mem (State.fetchInstr_congr_of_declared rfl hop hdecl) h

/-- Settles O1: each word but the last begins with an opcode's byte; the last one's `0xA0` is none. -/
theorem wordsOfTheOpcodeMapDecode : Obligations.WordsOfTheOpcodeMapDecode :=
  have word (o : Opcode) (a b : Byte) : decodeBytes [o.byte, a, b] = some (o.instr a b) :=
    decodeBytes_of_dispatch (dispatch_byte o) a b []
  ⟨word .ldi 0 8, word .ldi 1 0x82, word .prn 7 1, word .hlt 0xFF 0xFF, word .mul 0 1, word .cmp 5 3, rfl⟩

end Sys2Proof.Machine
end

section
/-! PROOF. What executing an instruction leaves unchanged, and a run of many steps: it always answers a next state, keeps
what every step keeps, and is short, because each instruction that leaves the core Running takes at least two bytes. -/

namespace Sys2Proof.Machine

variable {s t u : State} {i : Instr} {k : Nat}

/-! ### The frame of an instruction, completing or faulting -/

/-- No instruction writes memory, whether it completes or faults (R38). -/
theorem exec_mem_eq (h : exec i s = .next t) : t.mem = s.mem := by
  rcases exec_inv h with ⟨u, hu, rfl⟩ | ⟨b, -, rfl⟩
  · exact hu.mem_eq
  · rfl

/-- Only CMP writes `FL`, a clause of O29 (R32). -/
theorem exec_fl_eq (h : exec i s = .next t) (hi : ∀ a b, i ≠ .cmp a b) : t.fl = s.fl := by
  obtain ⟨-, -, hkeep, -⟩ := flagsAreWrittenOnlyByCmp
  exact hkeep i s t hi h

/-- Only PRN writes OUT (R40). -/
theorem exec_out_eq (h : exec i s = .next t) (hi : ∀ a, i ≠ .prn a) : t.out = s.out := by
  rcases exec_inv h with ⟨u, hu, rfl⟩ | ⟨b, -, rfl⟩
  · rcases hu.out_cases with e | ⟨a, _, e, -⟩
    · exact e
    · exact absurd e (hi a)
  · rfl

/-- Only LDI and MUL write a register, the one their first operand names (R24). -/
theorem opcode_of_exec_readReg_ne {o : Opcode} {a b : Byte} {r : RegIdx} (h : exec (o.instr a b) s = .next t)
    (hr : t.readReg r ≠ s.readReg r) : (o = .ldi ∨ o = .mul) ∧ a.toNat = r.val := by
  rcases exec_inv h with ⟨u, hu, rfl⟩ | ⟨b, -, rfl⟩
  · exact hu.opcode_of_readReg_ne hr
  · exact absurd rfl hr

/-- A register that the first operand does not name is kept. -/
theorem exec_readReg_eq_of_ne {o : Opcode} {a b : Byte} {r : RegIdx} (h : exec (o.instr a b) s = .next t)
    (hr : r.val ≠ a.toNat) : t.readReg r = s.readReg r :=
  Decidable.byContradiction fun hne => hr (opcode_of_exec_readReg_ne h hne).2.symm

/-- An opcode other than LDI and MUL keeps every register. -/
theorem exec_readReg_eq_of_opcode {o : Opcode} {a b : Byte} (h : exec (o.instr a b) s = .next t) (hldi : o ≠ .ldi)
    (hmul : o ≠ .mul) (r : RegIdx) : t.readReg r = s.readReg r :=
  Decidable.byContradiction fun hne => (opcode_of_exec_readReg_ne h hne).1.elim hldi hmul

/-- A well-formed instruction completes (R26, R183). -/
theorem exec_inv_of_wellFormed (h : exec i s = .next t) (hw : i.wellFormed = true) :
    ∃ u, Effect s i u ∧ t = u.advance i.length := by
  rcases exec_inv h with hcomplete | ⟨b, hb, -⟩
  · exact hcomplete
  · simp [wellFormed_eq_false_iff.mpr ⟨b, hb⟩] at hw

/-- A well-formed instruction leaves the fault record (R187). -/
theorem exec_sameFaultRecord (h : exec i s = .next t) (hw : i.wellFormed = true) : SameFaultRecord s t := by
  obtain ⟨u, hu, rfl⟩ := exec_inv_of_wellFormed h hw
  exact hu.sameFaultRecord

/-- A well-formed instruction other than HLT leaves the run state (R126). -/
theorem exec_runState_eq (h : exec i s = .next t) (hw : i.wellFormed = true) (hi : i ≠ .hlt) :
    t.runState = s.runState := by
  obtain ⟨u, hu, rfl⟩ := exec_inv_of_wellFormed h hw
  exact hu.runState_cases.resolve_right fun ⟨e, _⟩ => hi e

/-! ### Runs -/

/-- A run always answers a next state, as each of its steps does. -/
theorem run_total (k : Nat) (s : State) : ∃ t, Host.Core.run core k s = .next t := by
  induction k generalizing s with
  | zero => exact ⟨s, rfl⟩
  | succ k ih =>
    obtain ⟨u, hu⟩ := step_total s
    rw [run_succ hu]
    exact ih u

/-- What every step keeps, every run keeps. -/
theorem run_keeps {P : State → Prop} (hstep : ∀ {s t : State}, P s → step s = .next t → P t) (hs : P s)
    (h : Host.Core.run core k s = .next t) : P t := by
  induction k generalizing s with
  | zero =>
    cases h
    exact hs
  | succ k ih =>
    obtain ⟨u, hu⟩ := step_total s
    rw [run_succ hu] at h
    exact ih (hstep hs hu) h

/-- Every instruction but HLT has an operand, so two bytes at least (R93). -/
theorem two_le_opcode_length_of_ne_hlt {o : Opcode} (ho : o ≠ .hlt) : 2 ≤ o.length := by
  cases o with
  | hlt => exact absurd rfl ho
  | ldi | prn | mul | cmp => decide

/-- A step that leaves the core Running started Running where an instruction can execute, and moved `pc` by two or more:
HLT alone is one byte, and it stops the core. -/
theorem step_pc_of_running (h : step s = .next t) (ht : t.runState = .running) :
    s.runState = .running ∧ s.pc.toNat ≤ 253 ∧ s.pc.toNat + 2 ≤ t.pc.toNat := by
  obtain ⟨hn, rfl⟩ | ⟨-, f, rfl, -⟩ | ⟨hr, hp, o, u, -, hu, rfl⟩ := step_cases h
  · exact absurd ht hn
  · cases ht
  · have ho : o ≠ .hlt := by
      rintro rfl
      cases hu
      cases ht
    have hlen := two_le_opcode_length_of_ne_hlt ho
    rw [hu.advance_pc_toNat hp]
    exact ⟨hr, hp, by omega⟩

/-- A core still Running after `k + 1` steps passed `2 * k` bytes at least on its way to the last of them, which it
executed at 253 or below. -/
theorem run_pc_of_running (h : Host.Core.run core (k + 1) s = .next t) (ht : t.runState = .running) :
    s.runState = .running ∧ s.pc.toNat + 2 * k ≤ 253 := by
  induction k generalizing s with
  | zero =>
    obtain ⟨u, hu⟩ := step_total s
    rw [run_succ hu] at h
    cases h
    obtain ⟨hr, hp, -⟩ := step_pc_of_running hu ht
    exact ⟨hr, hp⟩
  | succ k ih =>
    obtain ⟨u, hu⟩ := step_total s
    rw [run_succ hu] at h
    obtain ⟨hur, hup⟩ := ih h
    obtain ⟨hr, -, hmove⟩ := step_pc_of_running hu hur
    exact ⟨hr, by omega⟩

/-- Under the invariant a core that is not Running ended by HLT with a clear record, or in a fault its record names. -/
theorem State.Inv.ended (h : s.Inv) (hs : s.runState ≠ .running) : s.endedNormally ∨ s.endedInFault := by
  cases hr : s.runState with
  | running => exact absurd hr hs
  | stopped =>
    obtain ⟨hkind, -⟩ := h.clear (by simp [hr])
    exact .inl ⟨hr, hkind⟩
  | faulted =>
    obtain ⟨-, hrec⟩ := h.record hr
    rcases hrec with ⟨hkind, -⟩ | ⟨hkind, -⟩ | ⟨hkind, -⟩
    · exact .inr ⟨hr, .inl hkind⟩
    · exact .inr ⟨hr, .inr (.inl hkind)⟩
    · exact .inr ⟨hr, .inr (.inr hkind)⟩

end Sys2Proof.Machine
end

section
/-! PROOF. The statements about the execution loop (40_execution_loop.md): the step, the fetch above memory, the frames of
the instructions and the end of a run. -/

namespace Sys2Proof.Machine

/-- Settles O43: a core Running after 128 steps would have executed its last instruction above 253 (`run_pc_of_running`),
and the invariant, which a run keeps, says how a core that is not Running ended. -/
theorem everyRunEndsWithin128Steps : Obligations.EveryRunEndsWithin128Steps := by
  unfold Obligations.EveryRunEndsWithin128Steps
  intro s _
  obtain ⟨t, ht⟩ := run_total 128 s
  have hend : t.runState ≠ .running := fun hr => by
    obtain ⟨-, hpc⟩ := run_pc_of_running ht hr
    omega
  exact ⟨t, ht, hend, fun hinv => (run_keeps step_keeps_inv hinv ht).ended hend⟩

/-- Settles O17: LDI and MUL write the register their first operand names, and only an ill-formed one writes more than
that. -/
theorem frameOfLdiAndMul : Obligations.FrameOfLdiAndMul := by
  unfold Obligations.FrameOfLdiAndMul
  intro a b i s t hi h
  have hregs : ∀ r : RegIdx, r.val ≠ a.toNat → t.readReg r = s.readReg r := by
    rcases hi with rfl | rfl
    · exact fun r => exec_readReg_eq_of_ne (o := .ldi) h
    · exact fun r => exec_readReg_eq_of_ne (o := .mul) h
  obtain ⟨hcmp, hprn, hhlt⟩ : (∀ c d, i ≠ .cmp c d) ∧ (∀ c, i ≠ .prn c) ∧ i ≠ .hlt := by
    rcases hi with rfl | rfl
    · exact ⟨nofun, nofun, nofun⟩
    · exact ⟨nofun, nofun, nofun⟩
  exact ⟨hregs, exec_fl_eq h hcmp, exec_out_eq h hprn,
    fun m => congrArg (Memory.read · m) (exec_mem_eq h),
    fun hw => ⟨exec_runState_eq h hw hhlt, exec_sameFaultRecord h hw⟩⟩

/-- Settles O18: PRN, CMP and HLT write no register; of the three CMP alone writes `FL`, PRN alone OUT and HLT alone the
run state. -/
theorem frameOfPrnCmpAndHlt : Obligations.FrameOfPrnCmpAndHlt := by
  unfold Obligations.FrameOfPrnCmpAndHlt
  intro a b i s t hi h
  have hregs : ∀ r, t.readReg r = s.readReg r := by
    rcases hi with rfl | rfl | rfl
    · exact exec_readReg_eq_of_opcode (o := .prn) (b := b) h nofun nofun
    · exact exec_readReg_eq_of_opcode (o := .cmp) h nofun nofun
    · exact exec_readReg_eq_of_opcode (o := .hlt) (a := a) (b := b) h nofun nofun
  have hfl (hne : i ≠ .cmp a b) : ∀ c d, i ≠ .cmp c d := by
    rcases hi with rfl | rfl | rfl
    · nofun
    · exact absurd rfl hne
    · nofun
  have hout (hne : i ≠ .prn a) : ∀ c, i ≠ .prn c := by
    rcases hi with rfl | rfl | rfl
    · exact absurd rfl hne
    · nofun
    · nofun
  exact ⟨hregs, fun m => congrArg (Memory.read · m) (exec_mem_eq h), fun hne => exec_fl_eq h (hfl hne),
    fun hne => exec_out_eq h (hout hne), fun hw => ⟨exec_sameFaultRecord h hw, exec_runState_eq h hw⟩⟩

/-- Settles O22: the fetch at 254 and above answers MemoryFault whatever memory holds (`State.fetchInstr_of_ge`), and the
address it reports fits FAULT_INFO. -/
theorem fetchAboveMemoryFaults : Obligations.FetchAboveMemoryFaults := by
  unfold Obligations.FetchAboveMemoryFaults
  intro s hr hp
  have haddr : s.fetchFaultAddr = if s.pc.toNat ≤ 255 then 256 else s.pc.toNat := by
    unfold State.fetchFaultAddr
    split <;> omega
  have hfits : s.fetchFaultAddr < 512 := max_lt (by decide) s.pc.isLt
  have hentry := s.raise_entry (.memoryFault s.fetchFaultAddr)
  rw [info_memoryFault hfits] at hentry
  rw [← haddr]
  exact ⟨_, step_of_fault hr (State.fetchInstr_of_ge hp), hentry⟩

/-- Settles O20: bytes that decode begin with a byte that resolves, so the fetch answers their instruction. -/
theorem stepRunsTheDecodedInstruction : Obligations.StepRunsTheDecodedInstruction := by
  unfold Obligations.StepRunsTheDecodedInstruction
  intro s i hr hp hdec
  obtain ⟨o, hd, rfl⟩ := decode_eq_ok_iff.mp hdec
  exact step_of_instr hr (State.fetchInstr_of_some hp hd)

end Sys2Proof.Machine
end

section
/-! PROOF. The statements about LDI and PRN (41_ldi_prn.md): what each does at a legal index, and how the environment
renders what PRN emitted. -/

namespace Sys2Proof.Machine

/-- A legal register index is the operand byte that names it (R26, R95). -/
theorem regIdx_eq_of_toNat_eq {a : Byte} {r : RegIdx} (h : a.toNat = r.val) :
    ∃ ha : a.toNat < 8, r = ⟨a.toNat, ha⟩ :=
  ⟨h ▸ r.isLt, Fin.ext h.symm⟩

/-- Settles O9: LDI completes with one register write and the advance, neither of which touches anything else. -/
theorem ldiSetsTheRegister : Obligations.LdiSetsTheRegister := by
  unfold Obligations.LdiSetsTheRegister
  intro d a imm s hd hp
  obtain ⟨ha, rfl⟩ := regIdx_eq_of_toNat_eq hd
  have hu : Effect s (.ldi a imm) (s.writeReg ⟨a.toNat, ha⟩ imm) := .ldi ha
  exact ⟨_, exec_of_effect hu, by simp, hu.advance_pc_toNat (o := .ldi) hp, sameRegsExcept_writeReg s _ imm,
    fun _ => rfl, rfl, rfl, hu.sameFaultRecord, rfl⟩

/-- Settles O10: PRN completes with one byte emitted and the advance, neither of which touches anything else. -/
theorem prnEmitsTheRegister : Obligations.PrnEmitsTheRegister := by
  unfold Obligations.PrnEmitsTheRegister
  intro r a s hr hp
  obtain ⟨ha, rfl⟩ := regIdx_eq_of_toNat_eq hr
  have hu : Effect s (.prn a) (s.emit (s.readReg ⟨a.toNat, ha⟩)) := .prn ha
  exact ⟨_, exec_of_effect hu, rfl, hu.advance_pc_toNat (o := .prn) hp, fun _ => rfl, fun _ => rfl, rfl, rfl,
    hu.sameFaultRecord⟩

/-- One more emitted byte is one more line at the end: joining lines is a left fold over them (R142). -/
theorem renderOut_append_singleton (out : List Byte) (v : Byte) :
    renderOut (out ++ [v]) = renderOut out ++ (decimal v ++ "\n") := by
  simp [renderOut, String.join]

/-- Settles O52: the lines of the sample bytes by evaluation, the general clause by `renderOut_append_singleton`. -/
theorem renderingAppendsOneLinePerByte : Obligations.RenderingAppendsOneLinePerByte :=
  ⟨rfl, by decide, by decide, by decide, renderOut_append_singleton⟩

end Sys2Proof.Machine
end

section
/-! PROOF. The ALU as arithmetic on bytes, what a move can do to `FAULT_KIND`, and the statements about MUL and CMP
(42_alu.md). -/

namespace Sys2Proof.Machine

variable {s t : State}

/-! ### ADD and MUL are the ring operations of bytes -/

/-- The result of ADD as a number (R151). -/
theorem aluAdd_toNat (va vb : Byte) : (aluAdd va vb).toNat = (va.toNat + vb.toNat) % 256 := by
  simp [aluAdd]

/-- ADD is the sum of bit vectors, which wraps modulo 256 (R151, R158). -/
theorem aluAdd_eq_add (va vb : Byte) : aluAdd va vb = va + vb :=
  BitVec.eq_of_toNat_eq (by rw [aluAdd_toNat, BitVec.toNat_add])

/-- MUL is the product of bit vectors, which wraps modulo 256 (R152, R158). -/
theorem aluMul_eq_mul (va vb : Byte) : aluMul va vb = va * vb :=
  BitVec.eq_of_toNat_eq (by rw [aluMul_toNat, BitVec.toNat_mul])

/-- The exact product of two bytes is at most 255 * 255 (R152). -/
theorem byte_mul_le (va vb : Byte) : va.toNat * vb.toNat ≤ 65025 :=
  Nat.mul_le_mul (Nat.le_of_lt_succ va.isLt) (Nat.le_of_lt_succ vb.isLt)

/-- The result of MUL is the low byte of the exact product, which fits in 16 bits (R152). -/
theorem aluMul_eq_extractLsb' (va vb : Byte) :
    aluMul va vb = (va.setWidth 16 * vb.setWidth 16).extractLsb' 0 8 := by
  have hwiden (v : Byte) : (v.setWidth 16).setWidth 8 = v := BitVec.setWidth_setWidth_of_le v (by decide)
  rw [aluMul_eq_mul, ← BitVec.setWidth_eq_extractLsb' (by decide), BitVec.setWidth_mul _ _ (by decide), hwiden, hwiden]

/-- The signed reading of the operands has the same low byte (R152). -/
theorem aluMul_eq_ofInt (va vb : Byte) : aluMul va vb = BitVec.ofInt 8 (va.toInt * vb.toInt) := by
  rw [aluMul_eq_mul, BitVec.ofInt_mul, BitVec.ofInt_toInt, BitVec.ofInt_toInt]

/-! ### CMP is the unsigned order of bytes -/

/-- The three outcomes of a comparison, each with its bit (R153). -/
theorem aluCmp_trichotomy (va vb : Byte) :
    (va.toNat = vb.toNat ∧ aluCmp va vb = 1) ∨ (va.toNat > vb.toNat ∧ aluCmp va vb = 2) ∨
    (va.toNat < vb.toNat ∧ aluCmp va vb = 4) := by
  unfold aluCmp
  split
  · next heq => exact .inl ⟨heq, rfl⟩
  · split
    · next hgt => exact .inr (.inl ⟨hgt, rfl⟩)
    · next hne hle => exact .inr (.inr ⟨by omega, rfl⟩)

/-- Which order of the operands each of the three bits stands for (R153). -/
theorem aluCmp_eq_iff (va vb : Byte) :
    (aluCmp va vb = 1 ↔ va.toNat = vb.toNat) ∧ (aluCmp va vb = 2 ↔ va.toNat > vb.toNat) ∧
    (aluCmp va vb = 4 ↔ va.toNat < vb.toNat) := by
  rcases aluCmp_trichotomy va vb with ⟨h, e⟩ | ⟨h, e⟩ | ⟨h, e⟩ <;> rw [e]
  · exact ⟨iff_of_true rfl h, iff_of_false (by decide) (by omega), iff_of_false (by decide) (by omega)⟩
  · exact ⟨iff_of_false (by decide) (by omega), iff_of_true rfl h, iff_of_false (by decide) (by omega)⟩
  · exact ⟨iff_of_false (by decide) (by omega), iff_of_false (by decide) (by omega), iff_of_true rfl h⟩

/-! ### The ALU functions -/

/-- Settles O6: MUL is the product of bit vectors, of which the low byte and the signed reading are library facts; its
write-back is a register write; the worked values by evaluation. -/
theorem aluMulIsTheLowByteOfTheProduct : Obligations.AluMulIsTheLowByteOfTheProduct := by
  unfold Obligations.AluMulIsTheLowByteOfTheProduct
  refine ⟨fun va vb => ⟨aluMul_toNat va vb, byte_mul_le va vb, aluMul_eq_extractLsb' va vb, ?_, aluMul_eq_ofInt va vb,
    rfl⟩, fun _ _ _ _ => ⟨rfl, rfl⟩, by decide⟩
  rw [aluMul_eq_mul, aluMul_eq_mul, BitVec.mul_comm]

/-- Settles O7: each bit is one of the three orders, so exchanging the operands exchanges G and L; the write-back of a
comparison writes `FL` alone; the worked values by evaluation. -/
theorem aluCmpSetsExactlyOneBit : Obligations.AluCmpSetsExactlyOneBit := by
  unfold Obligations.AluCmpSetsExactlyOneBit
  refine ⟨fun va vb => ?_, fun _ _ _ _ _ => rfl, by decide⟩
  obtain ⟨hone, htwo, hfour⟩ := aluCmp_eq_iff va vb
  obtain ⟨-, -, hfour'⟩ := aluCmp_eq_iff vb va
  refine ⟨hone, htwo, hfour, ?_, htwo.trans hfour'.symm, rfl⟩
  rcases aluCmp_trichotomy va vb with ⟨-, e⟩ | ⟨-, e⟩ | ⟨-, e⟩
  · exact .inl e
  · exact .inr (.inl e)
  · exact .inr (.inr e)

/-- Settles O8: ADD and MUL are the operations of the ring of bytes, and the effect of MUL writes a register alone,
whatever the product. -/
theorem arithmeticWrapsAndOverflowIsNoError : Obligations.ArithmeticWrapsAndOverflowIsNoError := by
  unfold Obligations.ArithmeticWrapsAndOverflowIsNoError
  constructor
  · intro u v w
    obtain ⟨-, -, hless⟩ := aluCmp_eq_iff u v
    refine ⟨aluAdd_toNat u v, aluMul_toNat u v, ?_⟩
    simp only [aluAdd_eq_add, aluMul_eq_mul]
    exact ⟨BitVec.add_comm u v, BitVec.mul_comm u v, BitVec.add_assoc u v w, BitVec.mul_assoc u v w, BitVec.add_zero u,
      BitVec.mul_one u, BitVec.mul_zero, hless⟩
  · intro d r a b s hd hr
    obtain ⟨ha, -⟩ := regIdx_eq_of_toNat_eq hd
    obtain ⟨hb, -⟩ := regIdx_eq_of_toNat_eq hr
    exact ⟨_, exec_of_effect (.mul ha hb), rfl, ⟨rfl, rfl, rfl⟩, rfl⟩

/-! ### The two instructions -/

/-- Settles O12: MUL reads both old values, writes their product to the first register and advances, neither of which
touches anything else. -/
theorem mulKeepsTheLowByte : Obligations.MulKeepsTheLowByte := by
  unfold Obligations.MulKeepsTheLowByte
  intro d r a b s hd hr hp
  obtain ⟨ha, rfl⟩ := regIdx_eq_of_toNat_eq hd
  obtain ⟨hb, rfl⟩ := regIdx_eq_of_toNat_eq hr
  have hu := Effect.mul (s := s) ha hb
  exact ⟨_, exec_of_effect hu, by simp [aluMul_toNat], hu.advance_pc_toNat (o := .mul) hp,
    sameRegsExcept_writeReg s _ _, fun _ => rfl, rfl, rfl, hu.sameFaultRecord, rfl⟩

/-- Settles O13: CMP overwrites `FL` with the order of the two registers (`aluCmp_setWidth`) and advances, neither of which
touches anything else. -/
theorem cmpRecordsTheOrder : Obligations.CmpRecordsTheOrder := by
  unfold Obligations.CmpRecordsTheOrder
  intro p q a b s hp hq hpc
  obtain ⟨ha, rfl⟩ := regIdx_eq_of_toNat_eq hp
  obtain ⟨hb, rfl⟩ := regIdx_eq_of_toNat_eq hq
  have hu := Effect.cmp (s := s) ha hb
  exact ⟨_, exec_of_effect hu, aluCmp_setWidth _ _, hu.advance_pc_toNat (o := .cmp) hpc, fun _ => rfl, fun _ => rfl,
    rfl, hu.sameFaultRecord, rfl⟩

/-! ### UnsupportedOperation -/

/-- A step leaves `FAULT_KIND` or writes one of the three codes that are raised (R184, R187). -/
theorem step_faultKind_cases (h : step s = .next t) :
    t.faultKind = s.faultKind ∨ t.faultKind = 1 ∨ t.faultKind = 3 ∨ t.faultKind = 4 := by
  obtain ⟨-, rfl⟩ | ⟨-, f, rfl, hf⟩ | ⟨-, -, o, u, -, hu, rfl⟩ := step_cases h
  · exact .inl rfl
  · obtain ⟨-, rfl⟩ | ⟨-, -, rfl⟩ | ⟨_, _, -, -, -, rfl⟩ := hf
    · exact .inr (.inr (.inl rfl))
    · exact .inr (.inl rfl)
    · exact .inr (.inr (.inr rfl))
  · obtain ⟨hkind, -⟩ := hu.sameFaultRecord
    exact .inl hkind

/-- A host request leaves `FAULT_KIND` or clears it: only a Reset writes the fault record (R189, R220). -/
theorem request_faultKind_cases (s : State) (r : HostRequest) :
    (s.request r).2.faultKind = s.faultKind ∨ (s.request r).2.faultKind = 0 := by
  cases r with
  | reset => exact .inr rfl
  | load bytes =>
    rcases s.hostLoad_cases bytes with ⟨-, -, e⟩ | ⟨-, -, e⟩ | ⟨-, e⟩ <;> exact .inl (by rw [State.request, e])
  | run =>
    rcases s.hostRun_cases with ⟨-, e⟩ | ⟨-, e⟩
    · exact .inl (by rw [State.request, e, State.setRunState_faultKind])
    · exact .inl (by rw [State.request, e])

/-- Settles O36: every code that a step or a request writes to `FAULT_KIND` is other than 2. -/
theorem unsupportedOperationIsNeverRaised : Obligations.UnsupportedOperationIsNeverRaised := by
  unfold Obligations.UnsupportedOperationIsNeverRaised
  intro s hs
  constructor
  · intro t h
    rcases step_faultKind_cases h with e | e | e | e <;> rw [e]
    · exact hs
    all_goals decide
  · intro r
    rcases request_faultKind_cases s r with e | e <;> rw [e]
    · exact hs
    · decide

end Sys2Proof.Machine
end

section
/-! PROOF. The statement about HLT (43_hlt.md). -/

namespace Sys2Proof.Machine

/-- Settles O11: HLT completes with the run state set to Stopped and the advance, neither of which touches anything else. -/
theorem hltStopsTheCore : Obligations.HltStopsTheCore := by
  unfold Obligations.HltStopsTheCore
  intro s hp
  have hu : Effect s .hlt (s.setRunState .stopped) := .hlt
  exact ⟨_, exec_of_effect hu, rfl, hu.advance_pc_toNat (o := .hlt) hp, fun _ => rfl, fun _ => rfl, rfl,
    hu.sameFaultRecord, rfl⟩

end Sys2Proof.Machine
end

section
/-! PROOF. The statements about exceptions (60_exceptions.md): the index a RegisterIndexFault reports, the order in which a
step meets its faults, that faults are precise, and that Faulted is sticky. -/

namespace Sys2Proof.Machine

variable {s t : State}

/-! ### Register indices above 7 -/

/-- The bad index an instruction reports is `operand_a` if that one is above 7 and `operand_b` otherwise: the indices it
checks are the first of its candidate operand bytes, in their order (R95, R186). -/
theorem firstBadIndex_instr_eq {o : Opcode} {a b r : Byte} (h : firstBadIndex (o.instr a b) = some r) :
    r = if 7 < a.toNat then a else b := by
  have hinit : (o.instr a b).regIndices <+: [a, b] := by
    cases o <;> simp [Opcode.instr, Instr.regIndices]
  have hfind : [a, b].find? (fun c => decide (7 < c.toNat)) = some r := hinit.find?_eq_some h
  by_cases ha : 7 < a.toNat
  · rw [List.find?_cons_of_pos (by simpa using ha), Option.some.injEq] at hfind
    rw [if_pos ha, hfind]
  · rw [List.find?_cons_of_neg (by simpa using ha)] at hfind
    rw [if_neg ha, List.mem_singleton.mp (List.mem_of_find?_eq_some hfind)]

/-- What an instruction with a bad index does, seen from outside: RegisterIndexFault and nothing else (R183, R187). -/
theorem exec_faultEntry_of_bad_index {o : Opcode} {a b : Byte} (h : ∃ r, firstBadIndex (o.instr a b) = some r)
    (s : State) :
    ∃ t, exec (o.instr a b) s = .next t ∧ FaultEntry s t 4 (if 7 < a.toNat then a.toNat else b.toNat) := by
  obtain ⟨r, hr⟩ := h
  obtain rfl := firstBadIndex_instr_eq hr
  have hentry := s.raise_entry (.registerIndexFault (if 7 < a.toNat then a else b))
  rw [info_registerIndexFault, apply_ite BitVec.toNat] at hentry
  exact ⟨_, exec_of_firstBadIndex hr s, hentry⟩

/-- Settles O14: LDI and PRN have a bad index exactly when `operand_a` is above 7, and then report it. -/
theorem badIndexOfLdiAndPrnFaults : Obligations.BadIndexOfLdiAndPrnFaults := by
  unfold Obligations.BadIndexOfLdiAndPrnFaults
  intro a imm s ha
  have hldi := (exists_firstBadIndex_iff .ldi a imm).mpr (.inl ⟨.inl rfl, ha⟩)
  have hprn := (exists_firstBadIndex_iff .prn a imm).mpr (.inl ⟨.inr rfl, ha⟩)
  have hfaults := And.intro (exec_faultEntry_of_bad_index hldi s) (exec_faultEntry_of_bad_index hprn s)
  rwa [if_pos ha] at hfaults

/-- Settles O15: MUL and CMP have a bad index exactly when one of their operands is above 7, and report the first such. -/
theorem badIndexOfMulAndCmpFaults : Obligations.BadIndexOfMulAndCmpFaults := by
  unfold Obligations.BadIndexOfMulAndCmpFaults
  intro a b s hbad
  have hmul := (exists_firstBadIndex_iff .mul a b).mpr (.inr ⟨.inl rfl, hbad⟩)
  have hcmp := (exists_firstBadIndex_iff .cmp a b).mpr (.inr ⟨.inr rfl, hbad⟩)
  exact ⟨exec_faultEntry_of_bad_index hmul s, exec_faultEntry_of_bad_index hcmp s⟩

/-! ### A step that ends Faulted -/

/-- `step_cases` for a step that takes a Running core to Faulted: it raised one of the three faults and did nothing else,
for an instruction that completes leaves the core Running or Stopped (R185, R187). -/
theorem step_faulted_inv (hr : s.runState = .running) (h : step s = .next t) (ht : t.runState = .faulted) :
    ∃ f, t = s.raise f ∧
      ((254 ≤ s.pc.toNat ∧ f = .memoryFault s.fetchFaultAddr) ∨
       (s.pc.toNat ≤ 253 ∧ dispatch (s.byteAt 0) = none ∧ f = .unknownOpcode (s.byteAt 0)) ∨
       (∃ o r, s.pc.toNat ≤ 253 ∧ dispatch (s.byteAt 0) = some o ∧
          firstBadIndex (o.instr (s.byteAt 1) (s.byteAt 2)) = some r ∧ f = .registerIndexFault r)) := by
  obtain ⟨hn, -⟩ | ⟨-, hfault⟩ | ⟨-, -, o, u, -, hu, rfl⟩ := step_cases h
  · exact absurd hr hn
  · exact hfault
  · exact absurd ht (hu.runState_ne_faulted hr)

/-- Settles O24: each fault of `step_faulted_inv` comes with the conditions that exclude the two others, and the index
reported is the first bad one. -/
theorem faultPriorityIsTheOrderOfTheStep : Obligations.FaultPriorityIsTheOrderOfTheStep := by
  unfold Obligations.FaultPriorityIsTheOrderOfTheStep
  intro s t hr h ht
  obtain ⟨f, rfl, ⟨hp, rfl⟩ | ⟨hp, hd, rfl⟩ | ⟨o, r, hp, hd, hb, rfl⟩⟩ := step_faulted_inv hr h ht
  · exact ⟨fun _ => rfl, fun _ => by omega, fun _ => by omega⟩
  · exact ⟨fun _ => by omega, fun _ _ => ⟨rfl, info_unknownOpcode _⟩, fun _ hsome => absurd hd hsome⟩
  · refine ⟨fun _ => by omega, fun _ hnone => by simp [hd] at hnone, fun _ _ => ⟨rfl, ?_⟩⟩
    rw [State.raise_faultInfo, info_registerIndexFault, firstBadIndex_instr_eq hb, apply_ite BitVec.toNat]

/-- Settles O25: a step that ends Faulted is a fault entry (`step_faulted_inv`), which writes the run state and the record
alone (`State.raise_entry`). -/
theorem faultsArePrecise : Obligations.FaultsArePrecise := by
  unfold Obligations.FaultsArePrecise
  intro s t hr h ht
  obtain ⟨f, rfl, -⟩ := step_faulted_inv hr h ht
  have hentry := s.raise_entry f
  exact ⟨hentry.faultPc, hentry.pc, hentry.regs, hentry.mem, hentry.fl, hentry.out⟩

/-! ### Faulted is sticky -/

/-- Outside Running any number of steps is idle (log entry 1). -/
theorem run_idle (hs : s.runState ≠ .running) (k : Nat) : Host.Core.run core k s = .next s := by
  induction k with
  | zero => rfl
  | succ k ih => rw [run_succ (step_idle hs), ih]

/-- Settles O37: steps are idle outside Running, Load and Run change something only while Stopped, and Reset writes every
field of the record. -/
theorem faultedIsLeftOnlyByReset : Obligations.FaultedIsLeftOnlyByReset := by
  unfold Obligations.FaultedIsLeftOnlyByReset
  intro s hs
  have hnotRunning : s.runState ≠ .running := by simp [hs]
  have hnotStopped : s.runState ≠ .stopped := by simp [hs]
  obtain ⟨hstopped, -⟩ | ⟨-, hrun⟩ := s.hostRun_cases
  · exact absurd hstopped hnotStopped
  · exact ⟨run_idle hnotRunning, State.hostLoad_of_ne_stopped hnotStopped, hrun, rfl, rfl, rfl, rfl⟩

end Sys2Proof.Machine
end

section
/-! PROOF. The statements about reset, the host's requests and hazards (70_reset_and_hazards.md): what a Reset and a Run
write, where a run begins and resumes, and that a register write is seen by the next instruction. -/

namespace Sys2Proof.Machine

variable {s t : State} {i : Instr}

/-! ### Reset and the requests -/

/-- Settles O46: a Reset is the reset state with OUT put back, and `State.reset` has OUT empty. -/
theorem hostResetKeepsOnlyTheOutput : Obligations.HostResetKeepsOnlyTheOutput :=
  fun s => ⟨s.hostReset_out, rfl⟩

/-- Settles O41: one lemma per request, put together in `request_keeps_inv`. -/
theorem requestsKeepTheInvariant : Obligations.RequestsKeepTheInvariant :=
  fun _ r h => request_keeps_inv h r

/-! ### The outcome of a Run, by run state -/

theorem State.hostRun_of_stopped (hs : s.runState = .stopped) : s.hostRun = (.accepted, s.setRunState .running) := by
  obtain ⟨-, e⟩ | ⟨hns, -⟩ := s.hostRun_cases
  · exact e
  · exact absurd hs hns

theorem State.hostRun_of_ne_stopped (hs : s.runState ≠ .stopped) : s.hostRun = (.ignored, s) := by
  obtain ⟨hst, -⟩ | ⟨-, e⟩ := s.hostRun_cases
  · exact absurd hst hs
  · exact e

/-- Settles O49: one equation of Run for each reply. -/
theorem runChangesOnlyTheRunState : Obligations.RunChangesOnlyTheRunState :=
  fun _ => ⟨State.hostRun_of_stopped, State.hostRun_of_ne_stopped⟩

/-- Settles O50: the step is HLT's execution (O20), which leaves the core Stopped one byte on (O11); the Run then writes
the run state alone. -/
theorem runAfterHltResumesAtTheNextByte : Obligations.RunAfterHltResumesAtTheNextByte := by
  unfold Obligations.RunAfterHltResumesAtTheNextByte
  intro s t hr hp hop h
  have hdec : decode (s.byteAt 0) (s.byteAt 1) (s.byteAt 2) = .ok .hlt := by rw [hop]; rfl
  obtain ⟨t', e, hstopped, hpc, hregs, hmem, hfl, hrecord, hout⟩ := hltStopsTheCore s hp
  rw [stepRunsTheDecodedInstruction s .hlt hr hp hdec, e, Host.Outcome.next.injEq] at h
  subst h
  exact ⟨_, State.hostRun_of_stopped hstopped, rfl, hpc, hregs, hmem, hfl, hout, hrecord⟩

/-! ### Where a run begins -/

/-- Where memory holds the bytes of an instruction from `pc` on, the fetch answers that instruction: the candidate
operand bytes past its length play no part (R90, R96). -/
theorem State.fetchInstr_of_encode (hp : s.pc.toNat ≤ 253)
    (hbytes : ∀ (k : Nat) (hk : k < (encode i).length), s.byteAt k = (encode i)[k]) : s.fetchInstr = .ok i := by
  have hop : s.byteAt 0 = i.opcode.byte := hbytes 0 (Nat.succ_pos _)
  have hd : dispatch (s.byteAt 0) = some i.opcode := by rw [hop, dispatch_byte]
  rw [State.fetchInstr_of_some hp hd]
  cases i with
  | hlt => rfl
  | prn a => rw [hbytes 1 (Nat.one_lt_succ_succ _)]; rfl
  | ldi a b | mul a b | cmp a b => rw [hbytes 1 (Nat.one_lt_succ_succ _), hbytes 2 (Nat.lt_add_one 2)]; rfl

/-- After Reset, Load and Run of an image that fits, the core is the reset core with the image loaded into an empty
memory, Running, and with OUT kept (R75, R220, R222, R225). -/
theorem reset_load_run_eq (s : State) {bytes : List Byte} (hlen : bytes.length ≤ 256) :
    (s.hostReset.hostLoad bytes).2.hostRun.2 =
      { s.hostReset with mem := Memory.load [] 0 bytes, runState := .running } := by
  rw [State.hostLoad_of_le rfl hlen, State.hostRun_of_stopped rfl]
  rfl

/-- Settles O51: byte `k` of the image lies at address `k` (`Memory.read_load_inside`), so the fetch at `pc` 0 meets the
bytes of the first instruction. -/
theorem firstInstructionIsTheFirstOfTheImage : Obligations.FirstInstructionIsTheFirstOfTheImage := by
  unfold Obligations.FirstInstructionIsTheFirstOfTheImage
  intro s i tail hlen
  have himage : ∀ (k : Nat) (hk : k < (encode i ++ tail).length),
      Memory.read (Memory.load [] 0 (encode i ++ tail)) k = (encode i ++ tail)[k] := fun k hk => by
    simpa using Memory.read_load_inside Memory.nil_wf (a := 0) (by omega) hk
  refine ⟨_, reset_load_run_eq s hlen, rfl, rfl, himage, step_of_instr rfl ?_⟩
  refine State.fetchInstr_of_encode (Nat.zero_le 253) fun k hk => ?_
  have hk' : k < (encode i ++ tail).length := by rw [List.length_append]; omega
  calc Memory.read (Memory.load [] 0 (encode i ++ tail)) (0 + k)
      = (encode i ++ tail)[k] := by rw [Nat.zero_add, himage k hk']
    _ = (encode i)[k] := List.getElem_append_left hk

/-! ### Hazards -/

/-- What lies `k` places after a `pc` that has moved `n` places on, over a memory that reads as before. -/
theorem State.byteAt_of_sameMem {n : Nat} (hmem : SameMem s t) (hpc : t.pc.toNat = s.pc.toNat + n) (k : Nat) :
    t.byteAt k = s.byteAt (n + k) := by
  rw [State.byteAt, State.byteAt, hmem, hpc, Nat.add_assoc]

/-- Settles O38: LDI's execution (O9) leaves the register at the immediate and `pc` at the PRN, whose execution (O10)
reads that register. -/
theorem ldiIsSeenByTheNextPrn : Obligations.LdiIsSeenByTheNextPrn := by
  unfold Obligations.LdiIsSeenByTheNextPrn
  intro r a b s hr hp ha h0 h1 h2 h3 h4
  have hldi : decode (s.byteAt 0) (s.byteAt 1) (s.byteAt 2) = .ok (.ldi a b) := by rw [h0, h1, h2]; rfl
  obtain ⟨t, et, hreg, hpc, -, hmem, -, hrun, -, hout⟩ := ldiSetsTheRegister r a b s ha (by omega)
  have hprn : decode (t.byteAt 0) (t.byteAt 1) (t.byteAt 2) = .ok (.prn a) := by
    rw [State.byteAt_of_sameMem hmem hpc 0, State.byteAt_of_sameMem hmem hpc 1, h3, h4]
    rfl
  obtain ⟨u, eu, houtu, hpcu, hregsu, -, -, hrunu, -⟩ := prnEmitsTheRegister r a t ha (by omega)
  rw [← stepRunsTheDecodedInstruction s _ hr (by omega) hldi] at et
  rw [← stepRunsTheDecodedInstruction t _ (hrun.trans hr) (by omega) hprn] at eu
  refine ⟨u, ?run, ?out, ?reg, by omega, ?running⟩
  case run =>
    rw [run_succ et, run_succ eu]
    rfl
  case out => rw [houtu, hout, hreg]
  case reg => rw [hregsu, hreg]
  case running => rw [hrunu, hrun, hr]

end Sys2Proof.Machine
end

section
/-! PROOF. Canonical memories as data (log entry 7): the first cell of a canonical memory is the lowest address that reads
as other than 0, so the reads of a canonical memory determine its list. -/

namespace Sys2Proof.Machine

variable {m n rest : Memory} {lo a k : Nat} {v : Byte}

/-- The first cell of a canonical memory reads as its byte, which is not 0. -/
theorem Memory.read_head_ne_zero (h : Memory.wfFrom lo ((k, v) :: rest) = true) :
    Memory.read ((k, v) :: rest) k ≠ 0 := by
  obtain ⟨-, -, hv, -⟩ := (Memory.wfFrom_cons lo k v rest).mp h
  rwa [Memory.read_cons, if_pos rfl]

/-- No address below the first cell of a canonical memory reads as other than 0. -/
theorem Memory.head_le_of_read_ne_zero (h : Memory.wfFrom lo ((k, v) :: rest) = true)
    (ha : Memory.read ((k, v) :: rest) a ≠ 0) : k ≤ a := by
  have hk : Memory.wfFrom k ((k, v) :: rest) = true :=
    (Memory.wfFrom_cons k k v rest).mpr ⟨Nat.le_refl k, ((Memory.wfFrom_cons lo k v rest).mp h).2⟩
  exact Nat.le_of_not_lt fun hlt => ha (Memory.read_below hk hlt)

/-- The reads of the cells after the first are those of the whole list, but for the first cell's own address. -/
theorem Memory.read_tail_eq (h : Memory.wfFrom (k + 1) rest = true) (v : Byte) (a : Nat) :
    Memory.read rest a = if a = k then 0 else Memory.read ((k, v) :: rest) a := by
  rw [Memory.read_cons]
  split
  · next hak => exact Memory.read_below h (by omega)
  · rfl

/-- Memories that are canonical from one address on and read alike are one list, by induction on the first: both begin at
the lowest address that reads as other than 0, with the byte read there, and their other cells read alike again. -/
theorem Memory.eq_of_read_eq (hm : Memory.wfFrom lo m = true) (hn : Memory.wfFrom lo n = true)
    (h : ∀ a, m.read a = n.read a) : m = n := by
  induction m generalizing n lo with
  | nil =>
    cases n with
    | nil => rfl
    | cons c rest => exact absurd (h c.1).symm (Memory.read_head_ne_zero hn)
  | cons c rest ih =>
    cases n with
    | nil => exact absurd (h c.1) (Memory.read_head_ne_zero hm)
    | cons c' rest' =>
      obtain ⟨k, v⟩ := c
      obtain ⟨k', v'⟩ := c'
      have hkk' : k ≤ k' := Memory.head_le_of_read_ne_zero hm (h k' ▸ Memory.read_head_ne_zero hn)
      have hk'k : k' ≤ k := Memory.head_le_of_read_ne_zero hn (h k ▸ Memory.read_head_ne_zero hm)
      obtain rfl : k = k' := Nat.le_antisymm hkk' hk'k
      obtain rfl : v = v' := by simpa [Memory.read_cons] using h k
      obtain ⟨-, -, -, hrest⟩ := (Memory.wfFrom_cons lo k v rest).mp hm
      obtain ⟨-, -, -, hrest'⟩ := (Memory.wfFrom_cons lo k v rest').mp hn
      have htails : ∀ a, Memory.read rest a = Memory.read rest' a := fun a => by
        rw [Memory.read_tail_eq hrest v, Memory.read_tail_eq hrest' v, h a]
      rw [ih hrest hrest' htails]

/-- Settles O44: canonical is canonical from address 0 on, and `Memory.eq_of_read_eq` holds from any address on. -/
theorem canonicalMemoriesThatReadAlikeAreEqual : Obligations.CanonicalMemoriesThatReadAlikeAreEqual :=
  fun _ _ => Memory.eq_of_read_eq

end Sys2Proof.Machine
end

section
/-! PROOF. The statement about the ALU function ADD (42_alu.md section 1), which no instruction reaches: what the
instructions write to a register. -/

namespace Sys2Proof.Machine

/-- What LDI and MUL, which alone write a register, leave in it: the immediate, or the product of the two registers
named (R140, R155, R157). -/
theorem Effect.readReg_of_ne {s u : State} {i : Instr} {r : RegIdx} (h : Effect s i u)
    (hr : u.readReg r ≠ s.readReg r) :
    (∃ a imm : Byte, i = .ldi a imm ∧ u.readReg r = imm) ∨
    ∃ (a b : Byte) (p q : RegIdx), i = .mul a b ∧ a.toNat = p.val ∧ b.toNat = q.val ∧
      u.readReg r = aluMul (s.readReg p) (s.readReg q) := by
  cases h with
  | @ldi a imm ha =>
    obtain rfl := eq_of_writeReg_readReg_ne hr
    exact .inl ⟨a, imm, rfl, by simp⟩
  | @mul a b ha hb =>
    obtain rfl := eq_of_writeReg_readReg_ne hr
    exact .inr ⟨a, b, ⟨a.toNat, ha⟩, ⟨b.toNat, hb⟩, rfl, rfl, rfl, by simp⟩
  | prn | hlt | cmp => exact absurd rfl hr

/-- The sum of two bytes exceeds a byte at most once, so one carry is all there is to discard (R151). -/
theorem aluAdd_toNat_eq_ite (va vb : Byte) :
    (aluAdd va vb).toNat =
      if va.toNat + vb.toNat ≤ 255 then va.toNat + vb.toNat else va.toNat + vb.toNat - 256 := by
  rw [aluAdd_toNat]
  split <;> omega

/-- Settles O5: ADD is the sum of bit vectors, and its write-back writes a register alone; the worked values by evaluation;
of the effects only those of LDI and MUL change a register (`Effect.readReg_of_ne`), and fault entry changes none. -/
theorem aluAddIsTheSumModulo256 : Obligations.AluAddIsTheSumModulo256 := by
  unfold Obligations.AluAddIsTheSumModulo256
  refine ⟨fun va vb => ⟨aluAdd_toNat va vb, by omega, aluAdd_toNat_eq_ite va vb, ?comm, rfl⟩, fun _ _ _ _ => rfl,
    by decide, fun i s t h r hr => ?written⟩
  case comm => rw [aluAdd_eq_add, aluAdd_eq_add, BitVec.add_comm]
  case written =>
    rcases exec_inv h with ⟨u, hu, rfl⟩ | ⟨b, -, rfl⟩
    · exact hu.readReg_of_ne hr
    · exact absurd rfl hr

end Sys2Proof.Machine
end

section
/-! PROOF. The statements about the model's own choices: the idle step (log entry 1), and the placing of a table word where
the next step fetches (log entry 4). -/

namespace Sys2Proof.Machine

variable {s : State} {bytes : List Byte}

/-- Settles O21: the step's two branches other than Running, by `step_idle`. -/
theorem stepIsIdleOutsideRunning : Obligations.StepIsIdleOutsideRunning :=
  fun _ => step_idle

/-! ### What placing bytes leaves -/

@[simp] theorem State.placeBytes_mem (s : State) (bytes : List Byte) :
    (s.placeBytes bytes).mem = s.mem.load s.placeAddr.toNat bytes := rfl
@[simp] theorem State.placeBytes_pc (s : State) (bytes : List Byte) : (s.placeBytes bytes).pc = s.placeAddr := rfl
@[simp] theorem State.placeBytes_runState (s : State) (bytes : List Byte) :
    (s.placeBytes bytes).runState = .running := rfl

/-- Where bytes are placed, all three reads of a fetch are in range (R122, R231). -/
theorem State.placeAddr_le (s : State) : s.placeAddr.toNat ≤ 253 := by
  unfold State.placeAddr
  split
  · next hp => exact hp
  · exact Nat.zero_le 253

/-- The bytes placed are those that the next fetch meets, in their order. -/
theorem State.byteAt_placeBytes (hwf : s.mem.wf = true) (hlen : bytes.length ≤ 3) {k : Nat} (hk : k < bytes.length) :
    (s.placeBytes bytes).byteAt k = bytes[k] := by
  have haddr := s.placeAddr_le
  rw [State.byteAt, State.placeBytes_mem, State.placeBytes_pc]
  exact Memory.read_load_inside hwf (by omega) hk

/-- What a list of three bytes decodes to is the decoder's answer for the three. -/
theorem decode_of_decodeBytes {ir a b : Byte} {i : Instr} (h : decodeBytes [ir, a, b] = some i) :
    decode ir a b = .ok i := by
  obtain ⟨o, a', b', rest, e, rfl⟩ := decodeBytes_inv h
  cases e
  exact decode_some (dispatch_byte o)

/-- Settles O53: the placed core is Running where an instruction can execute and holds the three bytes of the word from
`pc` on (`State.byteAt_placeBytes`), so its step executes what they decode to (O20). -/
theorem placedWordIsExecutedNext : Obligations.PlacedWordIsExecutedNext := by
  unfold Obligations.PlacedWordIsExecutedNext
  intro s nbits w i hwf hdec
  have hbyte {k : Nat} (hk : k < 3) : (s.withFetchWord nbits w).byteAt k = (tableBytes nbits w)[k] :=
    State.byteAt_placeBytes (bytes := tableBytes nbits w) hwf (Nat.le_refl 3) hk
  refine stepRunsTheDecodedInstruction _ i rfl s.placeAddr_le ?_
  rw [hbyte (k := 0) (by decide), hbyte (k := 1) (by decide), hbyte (k := 2) (by decide)]
  exact decode_of_decodeBytes hdec

end Sys2Proof.Machine
end
